-- ==== Sys2Proof/Word.lean ====
section
/-! DEFINITION. The plain word types of the block and the four kinds of word its ports carry
(spec/30_encoding.md R70 to R73, R79). -/

namespace Sys2Proof

/-- An 8-bit quantity: a register address, a register datum, `PT[k]`, `CNT`, `CMP`. -/
abbrev Byte := BitVec 8

/-- A 16-bit quantity: `MIN_US[k]`, `MAX_US[k]`, the argument of an operation, `result`. -/
abbrev Half := BitVec 16

/-- The four phases of the Pulse Scheduler (spec/10_state.md R27). -/
inductive Phase where
  | setPinHigh
  | waitPreRoll
  | setPinLow
  | waitFrameEnd
  deriving DecidableEq, Repr

/-- The five rows of the handler's transition table; `SetPinLow` has two (spec/42_pulse_scheduler.md R125). -/
inductive Row where
  | setPinHigh
  | waitPreRoll
  | setPinLowShort
  | setPinLowLong
  | waitFrameEnd
  deriving DecidableEq, Repr

/-- A word together with the port it arrives on. The format is known from the port, never from the
bits of the word (spec/30_encoding.md R70, R80). -/
inductive PortWord where
  /-- a register transaction on the host port -/
  | reg (w : BitVec 17)
  /-- a Channel Table operation on the host port -/
  | op (w : BitVec 28)
  /-- the phase, which the handler reads -/
  | ph (w : BitVec 2)
  /-- an external event: tick or power-on reset -/
  | ev (w : BitVec 1)
  deriving DecidableEq, Repr

/-- A word on the host port: the kind bit stands outside the word (spec/30_encoding.md R80, D1). -/
inductive HostWord where
  | reg (w : BitVec 17)
  | op (w : BitVec 28)
  deriving DecidableEq, Repr

/-- The four agents, as whoever takes the next step (spec/00_scope.md R9). -/
inductive Turn where
  | timer
  | scheduler
  | host
  /-- the external power-on reset is asserted -/
  | powerOn
  deriving DecidableEq, Repr

end Sys2Proof
end

