-- ==== Sys2Proof/Config.lean ====
section
/-! DEFINITION. What an instance of the block fixes: the scheduler's constants (spec/00_scope.md R5),
the build-time parameters with their constraints (R6, R7), and the values the spec leaves OPEN. -/

namespace Sys2Proof

/-- `PRE_ROLL_TICKS` (R5). -/
abbrev Config.preRollTicks : Nat := 64

/-- `MAX_TICKS`, the largest value of the 8-bit compare register (R5). -/
abbrev Config.maxTicks : Nat := 255

/-- `FRAME_TICKS` (R5). -/
abbrev Config.frameTicks : Nat := 512

/-- OPEN parameter `ISR_TRIM_TICKS`, any integer in `0..63` (D6). A free value: no body, so no proof can
lean on a number. DESIGN CHOICE (log 2), safe. -/
opaque Config.openIsrTrimTicks : Fin 64

/-- OPEN parameter `RESET_DELAY_TICKS`, any integer `>= 1` (D22), as what it exceeds 1 by. A free value.
DESIGN CHOICE (log 2), safe. -/
opaque Config.openResetDelayBeyondOne : Nat

/-- OPEN parameter `MAX_LATENCY_TICKS`, any integer `>= 0` (D4). A free value. DESIGN CHOICE (log 2), safe. -/
opaque Config.openMaxLatencyTicks : Nat

/-- The parameters of one instance of the block (R6, R7): configuration, changed by no step (spec/10_state.md R34). -/
structure Params where
  /-- `N`, the number of channels -/
  n : Nat
  /-- `TICK_US`, the tick in microseconds -/
  tickUs : Nat
  /-- `RANGE_MIN_US`, the reset value of every `MIN_US[k]` -/
  rangeMinUs : Half
  /-- `RANGE_MAX_US`, the reset value of every `MAX_US[k]` -/
  rangeMaxUs : Half
  /-- `ISR_TRIM_TICKS`; its bound `<= 63` is its type -/
  isrTrimTicks : Fin 64
  /-- `INIT_PULSE_TICKS`, the reset value of every `PT[k]` -/
  initPulseTicks : Byte
  /-- `INIT_CHANNEL`, the reset value of `CUR` -/
  initChannel : Nat
  /-- `RESET_DELAY_TICKS` -/
  resetDelayTicks : Nat
  /-- `MAX_LATENCY_TICKS` -/
  maxLatencyTicks : Nat
  /-- `ADDR_RESET` -/
  addrReset : Byte
  /-- `BASE_ENABLE` -/
  baseEnable : Byte
  /-- `BASE_POSITION` -/
  basePosition : Byte
  /-- `BASE_TICKS` -/
  baseTicks : Byte
  deriving DecidableEq, Repr

/-- The `N` addresses from `base` are addresses: they end at or below `0xFF` (R7, spec/20_memory.md R50). -/
def Params.rangeFits (p : Params) (base : Byte) : Bool :=
  base.toNat + p.n ≤ 256

/-- Two ranges of `N` addresses share no address (R7). -/
def Params.rangesApart (p : Params) (a b : Byte) : Bool :=
  a.toNat + p.n ≤ b.toNat || b.toNat + p.n ≤ a.toNat

/-- The range of `N` addresses from `base` excludes `ADDR_RESET` (R7). -/
def Params.rangeExcludesReset (p : Params) (base : Byte) : Bool :=
  p.addrReset.toNat < base.toNat || base.toNat + p.n ≤ p.addrReset.toNat

/-- The address map is legal: "three ranges of `N` addresses that are disjoint and exclude `ADDR_RESET`" (R7). -/
def Params.mapValid (p : Params) : Bool :=
  p.rangeFits p.baseEnable && p.rangeFits p.basePosition && p.rangeFits p.baseTicks
    && p.rangesApart p.baseEnable p.basePosition && p.rangesApart p.baseEnable p.baseTicks
    && p.rangesApart p.basePosition p.baseTicks
    && p.rangeExcludesReset p.baseEnable && p.rangeExcludesReset p.basePosition
    && p.rangeExcludesReset p.baseTicks

/-- The parameters are those of an instance of this hardware: every constraint of R6 and R7 holds (R8). -/
def Params.valid (p : Params) : Bool :=
  decide (1 ≤ p.n) && decide (p.n ≤ 16) && decide (1 ≤ p.tickUs) && decide (p.tickUs ≤ 205)
    && decide (p.rangeMinUs.toNat < p.rangeMaxUs.toNat) && decide (p.initChannel < p.n)
    && decide (1 ≤ p.resetDelayTicks) && p.mapValid

/-- The reference design (the values of R6 and R7), with the three OPEN parameters as arguments. -/
def Params.reference (trim : Fin 64) (resetDelay maxLatency : Nat) : Params where
  n := 4
  tickUs := 8
  rangeMinUs := 544#16
  rangeMaxUs := 2400#16
  isrTrimTicks := trim
  initPulseTicks := 128#8
  initChannel := 0
  resetDelayTicks := resetDelay
  maxLatencyTicks := maxLatency
  addrReset := 0x00#8
  baseEnable := 0x10#8
  basePosition := 0x20#8
  baseTicks := 0x30#8

/-- The instance `State.reset` is: the reference design with every OPEN parameter left free. -/
def Params.openReference : Params :=
  Params.reference Config.openIsrTrimTicks (Config.openResetDelayBeyondOne + 1) Config.openMaxLatencyTicks

end Sys2Proof
end

