-- ==== Sys2Proof/Syntax.lean ====
section
/-! DEFINITION. The instructions of the block: one constructor per row of spec/opcode_table.json.
A bit field the operation ignores (spec/30_encoding.md R78) is an operand all the same, so that a word
and its instruction carry the same bits. -/

namespace Sys2Proof

/-- One value of one format (spec/30_encoding.md R70). `k` is a channel the address decoder found, `data` the
datum byte of a REG word, `idx` and `arg` the fields of an OP word. -/
inductive Instr where
  /-- RD.RESET (R151); `data` ignored -/
  | rdReset (data : Byte)
  /-- WR.RESET.Z (R152): the datum is zero -/
  | wrResetZ
  /-- WR.RESET.NZ (R153): the datum is not zero -/
  | wrResetNz (data : Byte)
  /-- RD.ENABLE (R154); `data` ignored -/
  | rdEnable (k : BitVec 4) (data : Byte)
  /-- WR.ENABLE (R155) -/
  | wrEnable (k : BitVec 4) (data : Byte)
  /-- RD.POSITION (R156); `data` ignored -/
  | rdPosition (k : BitVec 4) (data : Byte)
  /-- WR.POSITION (R157) -/
  | wrPosition (k : BitVec 4) (data : Byte)
  /-- RD.TICKS (R158); `data` ignored -/
  | rdTicks (k : BitVec 4) (data : Byte)
  /-- WR.TICKS (R159) -/
  | wrTicks (k : BitVec 4) (data : Byte)
  /-- RD.UNDEF (R160); `data` ignored -/
  | rdUndef (addr : Byte) (data : Byte)
  /-- WR.UNDEF (R161); `data` without effect -/
  | wrUndef (addr : Byte) (data : Byte)
  /-- ENABLE (R95); `arg` ignored -/
  | enable (idx : Byte) (arg : Half)
  /-- DISABLE (R96); `arg` ignored -/
  | disable (idx : Byte) (arg : Half)
  /-- IS_ENABLED (R97); `arg` ignored -/
  | isEnabled (idx : Byte) (arg : Half)
  /-- SET_POS (R98); `arg` is the angle in degrees -/
  | setPos (idx : Byte) (arg : Half)
  /-- GET_POS (R101); `arg` ignored -/
  | getPos (idx : Byte) (arg : Half)
  /-- SET_US (R99); `arg` is the width in microseconds -/
  | setUs (idx : Byte) (arg : Half)
  /-- GET_US (R100); `arg` ignored -/
  | getUs (idx : Byte) (arg : Half)
  /-- OP.UNDEF.7 (R78): opcode 0x7 -/
  | opUndef7 (idx : Byte) (arg : Half)
  /-- OP.UNDEF.8_F (R78): opcodes 0x8 to 0xF; `low` is the opcode's low three bits -/
  | opUndef8F (low : BitVec 3) (idx : Byte) (arg : Half)
  /-- ISR.SETPINHIGH (R126) -/
  | isrSetPinHigh
  /-- ISR.WAITPREROLL (R127) -/
  | isrWaitPreRoll
  /-- ISR.SETPINLOW.SHORT (R128) -/
  | isrSetPinLowShort
  /-- ISR.SETPINLOW.LONG (R129) -/
  | isrSetPinLowLong
  /-- ISR.WAITFRAMEEND (R130) -/
  | isrWaitFrameEnd
  /-- TICK (R111) -/
  | tick
  /-- POR (R200, R201) -/
  | por
  deriving DecidableEq, Repr

end Sys2Proof
end

