-- ==== Sys2Proof/WellFormed.lean ====
section
/-! DEFINITION. Which instructions the encodings of an instance can say (the constraints of
spec/opcode_table.json; spec/30_encoding.md R71 to R78). -/

namespace Sys2Proof

/-- `addr` is one of the `N` addresses from `base` (R75). -/
def Params.inRange (p : Params) (base addr : Byte) : Bool :=
  decide (base.toNat ≤ addr.toNat) && decide (addr.toNat - base.toNat < p.n)

/-- `addr` is undefined: neither `ADDR_RESET` nor in a range (R64, R74). -/
def Params.outsideMap (p : Params) (addr : Byte) : Bool :=
  addr != p.addrReset && !p.inRange p.baseEnable addr && !p.inRange p.basePosition addr
    && !p.inRange p.baseTicks addr

/-- `k` is a channel of the instance. -/
def Params.isChannel (p : Params) (k : BitVec 4) : Bool := decide (k.toNat < p.n)

/-- The pulse `pt` is long: it pushes past the mid-frame mark (R129; the sum has 9 bits). -/
def pulseIsLong (pt : Byte) : Bool := decide (Config.preRollTicks + pt.toNat > Config.maxTicks)

/-- The instruction can stand on a port of the instance `p`, where `pt` is the `PT[CUR]` the handler sees
(the constraint that tells SHORT from LONG is on the state and not on the encoding). -/
def Instr.wellFormed (p : Params) (pt : Byte) : Instr → Bool
  | .rdReset _ => true
  | .wrResetZ => true
  | .wrResetNz data => data != 0#8
  | .rdEnable k _ => p.isChannel k
  | .wrEnable k _ => p.isChannel k
  | .rdPosition k _ => p.isChannel k
  | .wrPosition k _ => p.isChannel k
  | .rdTicks k _ => p.isChannel k
  | .wrTicks k _ => p.isChannel k
  | .rdUndef addr _ => p.outsideMap addr
  | .wrUndef addr _ => p.outsideMap addr
  | .enable _ _ => true
  | .disable _ _ => true
  | .isEnabled _ _ => true
  | .setPos _ _ => true
  | .getPos _ _ => true
  | .setUs _ _ => true
  | .getUs _ _ => true
  | .opUndef7 _ _ => true
  | .opUndef8F _ _ _ => true
  | .isrSetPinHigh => true
  | .isrWaitPreRoll => true
  | .isrSetPinLowShort => !pulseIsLong pt
  | .isrSetPinLowLong => pulseIsLong pt
  | .isrWaitFrameEnd => true
  | .tick => true
  | .por => true

/-- The instruction belongs to the Host: a register transaction or a Channel Table operation (R9). -/
def Instr.isHost : Instr → Bool
  | .rdReset _ => true
  | .wrResetZ => true
  | .wrResetNz _ => true
  | .rdEnable _ _ => true
  | .wrEnable _ _ => true
  | .rdPosition _ _ => true
  | .wrPosition _ _ => true
  | .rdTicks _ _ => true
  | .wrTicks _ _ => true
  | .rdUndef _ _ => true
  | .wrUndef _ _ => true
  | .enable _ _ => true
  | .disable _ _ => true
  | .isEnabled _ _ => true
  | .setPos _ _ => true
  | .getPos _ _ => true
  | .setUs _ _ => true
  | .getUs _ _ => true
  | .opUndef7 _ _ => true
  | .opUndef8F _ _ _ => true
  | .isrSetPinHigh => false
  | .isrWaitPreRoll => false
  | .isrSetPinLowShort => false
  | .isrSetPinLowLong => false
  | .isrWaitFrameEnd => false
  | .tick => false
  | .por => false

/-- The instruction is a row of the handler (R125). -/
def Instr.row? : Instr → Option Row
  | .isrSetPinHigh => some .setPinHigh
  | .isrWaitPreRoll => some .waitPreRoll
  | .isrSetPinLowShort => some .setPinLowShort
  | .isrSetPinLowLong => some .setPinLowLong
  | .isrWaitFrameEnd => some .waitFrameEnd
  | .rdReset _ => none
  | .wrResetZ => none
  | .wrResetNz _ => none
  | .rdEnable _ _ => none
  | .wrEnable _ _ => none
  | .rdPosition _ _ => none
  | .wrPosition _ _ => none
  | .rdTicks _ _ => none
  | .wrTicks _ _ => none
  | .rdUndef _ _ => none
  | .wrUndef _ _ => none
  | .enable _ _ => none
  | .disable _ _ => none
  | .isEnabled _ _ => none
  | .setPos _ _ => none
  | .getPos _ _ => none
  | .setUs _ _ => none
  | .getUs _ _ => none
  | .opUndef7 _ _ => none
  | .opUndef8F _ _ _ => none
  | .tick => none
  | .por => none

/-- The row as an instruction. -/
def Row.instr : Row → Instr
  | .setPinHigh => .isrSetPinHigh
  | .waitPreRoll => .isrWaitPreRoll
  | .setPinLowShort => .isrSetPinLowShort
  | .setPinLowLong => .isrSetPinLowLong
  | .waitFrameEnd => .isrWaitFrameEnd

end Sys2Proof
end

