-- ==== Sys2Proof/Decode.lean ====
section
/-! DEFINITION. From words to instructions and back (spec/30_encoding.md): the address decoder (R75), one
decoder per format (R71 to R73, R77 to R79), the encoder, and the two as the host numbers a word's bits. -/

namespace Sys2Proof

/-! ## Fields -/

/-- REG bit 16: 1 is a write (R71). -/
def regIsWrite (w : BitVec 17) : Bool := w.getLsbD 16

/-- REG bits 15:8: the register address (R71). -/
def regAddr (w : BitVec 17) : Byte := w.extractLsb' 8 8

/-- REG bits 7:0: the datum (R71). -/
def regData (w : BitVec 17) : Byte := w.extractLsb' 0 8

/-- OP bits 27:24: the operation (R72). -/
def opCode (w : BitVec 28) : BitVec 4 := w.extractLsb' 24 4

/-- OP bits 23:16: the channel index operand (R72). -/
def opIdx (w : BitVec 28) : Byte := w.extractLsb' 16 8

/-- OP bits 15:0: the argument (R72). -/
def opArg (w : BitVec 28) : Half := w.extractLsb' 0 16

/-- The REG word `w, addr, data`, write bit on the left (R71). -/
def regWord (write : Bool) (addr data : Byte) : BitVec 17 := BitVec.ofBool write ++ addr ++ data

/-- The OP word `op, idx, arg`, opcode on the left (R72). -/
def opWord (op : BitVec 4) (idx : Byte) (arg : Half) : BitVec 28 := op ++ idx ++ arg

/-! ## The phase (R73) -/

/-- The 2-bit code of a phase. -/
def Phase.code : Phase → BitVec 2
  | .setPinHigh => 0b00#2
  | .waitPreRoll => 0b01#2
  | .setPinLow => 0b10#2
  | .waitFrameEnd => 0b11#2

/-- The phase a 2-bit code stands for; all four codes are used. -/
def phaseOfCode (w : BitVec 2) : Phase :=
  if w = 0b00#2 then .setPinHigh
  else if w = 0b01#2 then .waitPreRoll
  else if w = 0b10#2 then .setPinLow
  else .waitFrameEnd

/-- The row the handler runs (R125): the phase names it, and in `SetPinLow` the pulse of the current
channel chooses between the two outcomes. -/
def rowOf (ph : Phase) (pt : Byte) : Row :=
  match ph with
  | .setPinHigh => .setPinHigh
  | .waitPreRoll => .waitPreRoll
  | .setPinLow => if pulseIsLong pt then .setPinLowLong else .setPinLowShort
  | .waitFrameEnd => .waitFrameEnd

/-- The phase whose code selects a row (R126 to R130). -/
def Row.phase : Row → Phase
  | .setPinHigh => .setPinHigh
  | .waitPreRoll => .waitPreRoll
  | .setPinLowShort => .setPinLow
  | .setPinLowLong => .setPinLow
  | .waitFrameEnd => .waitFrameEnd

/-! ## The address decoder (R75) -/

/-- The class of a register address, with the channel for the three per-channel classes (R74). -/
inductive AddrClass where
  | reset
  | enable (k : Nat)
  | position (k : Nat)
  | ticks (k : Nat)
  | undef
  deriving DecidableEq, Repr

/-- The class of `addr` and the channel, "derived from the address offset within its range" (R75). -/
def classify (p : Params) (addr : Byte) : AddrClass :=
  if addr = p.addrReset then .reset
  else if p.inRange p.baseEnable addr then .enable (addr.toNat - p.baseEnable.toNat)
  else if p.inRange p.basePosition addr then .position (addr.toNat - p.basePosition.toNat)
  else if p.inRange p.baseTicks addr then .ticks (addr.toNat - p.baseTicks.toNat)
  else .undef

/-! ## Decoders -/

/-- A register read (R150). -/
def decodeRegRead (p : Params) (addr data : Byte) : Instr :=
  match classify p addr with
  | .reset => .rdReset data
  | .enable k => .rdEnable (BitVec.ofNat 4 k) data
  | .position k => .rdPosition (BitVec.ofNat 4 k) data
  | .ticks k => .rdTicks (BitVec.ofNat 4 k) data
  | .undef => .rdUndef addr data

/-- A register write (R150). -/
def decodeRegWrite (p : Params) (addr data : Byte) : Instr :=
  match classify p addr with
  | .reset => if data = 0#8 then .wrResetZ else .wrResetNz data
  | .enable k => .wrEnable (BitVec.ofNat 4 k) data
  | .position k => .wrPosition (BitVec.ofNat 4 k) data
  | .ticks k => .wrTicks (BitVec.ofNat 4 k) data
  | .undef => .wrUndef addr data

/-- Format REG (R71, R150). -/
def decodeReg (p : Params) (w : BitVec 17) : Instr :=
  if regIsWrite w then decodeRegWrite p (regAddr w) (regData w)
  else decodeRegRead p (regAddr w) (regData w)

/-- Format OP (R72, R77, R78). -/
def decodeOp (w : BitVec 28) : Instr :=
  if opCode w = 0x0#4 then .enable (opIdx w) (opArg w)
  else if opCode w = 0x1#4 then .disable (opIdx w) (opArg w)
  else if opCode w = 0x2#4 then .isEnabled (opIdx w) (opArg w)
  else if opCode w = 0x3#4 then .setPos (opIdx w) (opArg w)
  else if opCode w = 0x4#4 then .getPos (opIdx w) (opArg w)
  else if opCode w = 0x5#4 then .setUs (opIdx w) (opArg w)
  else if opCode w = 0x6#4 then .getUs (opIdx w) (opArg w)
  else if opCode w = 0x7#4 then .opUndef7 (opIdx w) (opArg w)
  else .opUndef8F ((opCode w).extractLsb' 0 3) (opIdx w) (opArg w)

/-- Format PH (R73, R125); `pt` is the pulse of the current channel. -/
def decodePh (pt : Byte) (w : BitVec 2) : Instr := (rowOf (phaseOfCode w) pt).instr

/-- Format EV (R79). -/
def decodeEv (w : BitVec 1) : Instr := if w = 0#1 then .tick else .por

/-- The instruction a word stands for on the instance `p`. Total: every word of every format selects an
operation (R78). -/
def decode (p : Params) (pt : Byte) : PortWord → Instr
  | .reg w => decodeReg p w
  | .op w => decodeOp w
  | .ph w => decodePh pt w
  | .ev w => decodeEv w

/-- The word on the host port, with the port's kind bit as its format (R80). -/
def HostWord.toPort : HostWord → PortWord
  | .reg w => .reg w
  | .op w => .op w

/-! ## Encoder -/

/-- Channel `k`'s address in the range from `base` (R74). -/
def channelAddr (base : Byte) (k : BitVec 4) : Byte := base + k.setWidth 8

/-- The word of an instruction on the instance `p`, from the formats (R71, R72, R73, R79) and the map (R74, R77). -/
def encode (p : Params) : Instr → PortWord
  | .rdReset data => .reg (regWord false p.addrReset data)
  | .wrResetZ => .reg (regWord true p.addrReset 0#8)
  | .wrResetNz data => .reg (regWord true p.addrReset data)
  | .rdEnable k data => .reg (regWord false (channelAddr p.baseEnable k) data)
  | .wrEnable k data => .reg (regWord true (channelAddr p.baseEnable k) data)
  | .rdPosition k data => .reg (regWord false (channelAddr p.basePosition k) data)
  | .wrPosition k data => .reg (regWord true (channelAddr p.basePosition k) data)
  | .rdTicks k data => .reg (regWord false (channelAddr p.baseTicks k) data)
  | .wrTicks k data => .reg (regWord true (channelAddr p.baseTicks k) data)
  | .rdUndef addr data => .reg (regWord false addr data)
  | .wrUndef addr data => .reg (regWord true addr data)
  | .enable idx arg => .op (opWord 0x0#4 idx arg)
  | .disable idx arg => .op (opWord 0x1#4 idx arg)
  | .isEnabled idx arg => .op (opWord 0x2#4 idx arg)
  | .setPos idx arg => .op (opWord 0x3#4 idx arg)
  | .getPos idx arg => .op (opWord 0x4#4 idx arg)
  | .setUs idx arg => .op (opWord 0x5#4 idx arg)
  | .getUs idx arg => .op (opWord 0x6#4 idx arg)
  | .opUndef7 idx arg => .op (opWord 0x7#4 idx arg)
  | .opUndef8F low idx arg => .op (opWord (1#1 ++ low) idx arg)
  | .isrSetPinHigh => .ph Phase.setPinHigh.code
  | .isrWaitPreRoll => .ph Phase.waitPreRoll.code
  | .isrSetPinLowShort => .ph Phase.setPinLow.code
  | .isrSetPinLowLong => .ph Phase.setPinLow.code
  | .isrWaitFrameEnd => .ph Phase.waitFrameEnd.code
  | .tick => .ev 0#1
  | .por => .ev 1#1

/-! ## Words as bare numbers -/

/-- Why a bare number is no word of any format. -/
inductive DecodeError where
  /-- no format has this many bits (R70) -/
  | noSuchFormat (nbits : Nat)
  /-- the number has a bit above its format's width (R70, R80) -/
  | wordTooWide (nbits w : Nat)
  deriving DecidableEq, Repr

/-- The port word a bare number of `nbits` bits is. The exact widths are R70's; 24 and 32 are REG and OP
in whole bytes. In whole bytes PH and EV have 8 bits both, and R80 says that no word tells its own format:
8 bits are read as PH (log 9, DESIGN CHOICE). -/
def portWordOf (nbits w : Nat) : Except DecodeError PortWord :=
  if nbits = 17 ∨ nbits = 24 then
    if w < 2 ^ 17 then .ok (.reg (BitVec.ofNat 17 w)) else .error (.wordTooWide nbits w)
  else if nbits = 28 ∨ nbits = 32 then
    if w < 2 ^ 28 then .ok (.op (BitVec.ofNat 28 w)) else .error (.wordTooWide nbits w)
  else if nbits = 2 ∨ nbits = 8 then
    if w < 2 ^ 2 then .ok (.ph (BitVec.ofNat 2 w)) else .error (.wordTooWide nbits w)
  else if nbits = 1 then
    if w < 2 ^ 1 then .ok (.ev (BitVec.ofNat 1 w)) else .error (.wordTooWide nbits w)
  else .error (.noSuchFormat nbits)

/-- The decoder on a bare number, on the reference instance with every pulse at its reset value. -/
def decodeNumber (nbits w : Nat) : Except DecodeError Instr :=
  match portWordOf nbits w with
  | .ok pw => .ok (decode Params.openReference Params.openReference.initPulseTicks pw)
  | .error e => .error e

/-- What the decoder reads from an instruction of spec/opcode_table.json whose bits are `w`. -/
def decodeTableWord (nbits w : Nat) : Option Instr :=
  match decodeNumber nbits w with
  | .ok i => some i
  | .error _ => none

end Sys2Proof
end

