-- ==== Sys2Proof/Machine/State.lean ====
section
/-! DEFINITION. The state of the block (spec/10_state.md R20), the model's own fields beside it, why a step
can stop, and the state after reset (R36). -/

namespace Sys2Proof.Machine

/-- The block has no fault (spec/00_scope.md R13): its three error kinds are results of a step, so nothing
raises a fault and there is no constructor. Safe: no run is cut short by one. -/
inductive Fault where
  deriving DecidableEq, Repr

/-- Why a step has no meaning. -/
inductive Refusal where
  /-- Raised by `exec` for an instruction without a meaning; no instruction of this model is left so. Safe. -/
  | notModelled (mnemonic : String)
  /-- Raised by every step of a parameter set outside R6 and R7: "a model refuses it" (spec/00_scope.md R8). Safe. -/
  | notAnInstance
  /-- Raised by a register access of a width other than one byte (spec/20_memory.md R51). Safe. -/
  | accessWidth (bytes : Nat)
  deriving DecidableEq, Repr

/-- One record of the Channel Table (spec/10_state.md R21). -/
structure Channel where
  /-- `EN[k]` (R23) -/
  en : Bool
  /-- `PT[k]` (R24) -/
  pt : Byte
  /-- `MIN_US[k]` (R25) -/
  minUs : Half
  /-- `MAX_US[k]` (R25) -/
  maxUs : Half
  deriving DecidableEq, Repr

/-- The result code of a Host step (spec/60_exceptions.md R170). -/
inductive Status where
  | ok
  | invalidIndex
  | invalidValue
  | unrecognizedAddress
  deriving DecidableEq, Repr

/-- What a Host step answers on the outputs (spec/00_scope.md R12). An output the step's rule does not
mention is `none`: the model says nothing of it. -/
structure Answer where
  /-- the `status` output -/
  status : Status
  /-- the value a report records, for a log only (R170) -/
  info : Option Nat
  /-- the `rdata` output: the byte a register read returns -/
  rdata : Option Byte
  /-- the `result` output: the value a Channel Table read returns -/
  result : Option Half
  deriving DecidableEq, Repr

/-- What the block's surroundings will do next; the model's own, no state of the block (log 3, log 5). -/
structure Env where
  /-- the turns the agents will be given, first one first; when it is empty, `run` of R82 (log 4) -/
  sched : List Turn
  /-- the words offered at the host port, first one first -/
  hostPort : List HostWord
  /-- ticks gone by since the match, while `MF` stays 1: what R178 (a) bounds -/
  late : Nat
  deriving DecidableEq, Repr

/-- The complete state: the tuple of R20 with the model's own `cfg`, `answer` and `env`. -/
structure State where
  /-- MODEL: the parameters of the instance; no step changes them (R34, log 1) -/
  cfg : Params
  /-- the Channel Table: `EN`, `PT`, `MIN_US`, `MAX_US` of every channel (R21) -/
  table : List Channel
  /-- `PH` (R27) -/
  ph : Phase
  /-- `CUR`, a channel index (R28) -/
  cur : Nat
  /-- `CNT` (R29) -/
  cnt : Byte
  /-- `CMP` (R30) -/
  cmp : Byte
  /-- `MF` (R31) -/
  mf : Bool
  /-- `PIN[k]` of every channel (R32) -/
  pins : List Bool
  /-- `RSTP` (R33) -/
  rstp : Bool
  /-- `RSTC` (R33) -/
  rstc : Nat
  /-- MODEL: what the latest Host step answered; `none` before the first (log 8) -/
  answer : Option Answer
  /-- MODEL: the surroundings (log 3) -/
  env : Env
  deriving DecidableEq, Repr

/-- A channel record right after reset (R36). -/
def Channel.atReset (p : Params) : Channel where
  en := false
  pt := p.initPulseTicks
  minUs := p.rangeMinUs
  maxUs := p.rangeMaxUs

/-- Surroundings that have announced nothing. -/
def Env.quiet : Env where
  sched := []
  hostPort := []
  late := 0

/-- The instance `p` right after reset (R36, spec/70_reset_and_hazards.md R201), in surroundings `env`. -/
def State.resetIn (p : Params) (env : Env) : State where
  cfg := p
  table := List.replicate p.n (Channel.atReset p)
  ph := .setPinHigh
  cur := p.initChannel
  cnt := 0#8
  cmp := 0#8
  mf := false
  pins := List.replicate p.n false
  rstp := false
  rstc := 0
  answer := none
  env := env

/-- The machine right after reset: the reference design with its OPEN parameters free (log 2), in quiet
surroundings. -/
def State.reset : State := State.resetIn Params.openReference Env.quiet

end Sys2Proof.Machine
end

