-- ==== Sys2Proof/Machine/Flags.lean ====
section
/-! DEFINITION. The one flag of the block, `MF` (spec/10_state.md R31), and the 2-bit code of the `status`
output (spec/60_exceptions.md R170). -/

namespace Sys2Proof.Machine

/-- `MF` after a tick that brings the counter to `count` (spec/41_timer.md R111, R112, R117): a match sets it,
and a flag that is already set stays set. -/
def matchFlag (mf : Bool) (count cmp : Byte) : Bool := mf || count == cmp

/-- The number of a status code (R170). -/
def Status.code : Status → BitVec 2
  | .ok => 0#2
  | .invalidIndex => 1#2
  | .invalidValue => 2#2
  | .unrecognizedAddress => 3#2

end Sys2Proof.Machine
end

