-- ==== Sys2Proof/Machine/Operands.lean ====
section
/-! DEFINITION. The operand forms: conversions between degrees, microseconds and ticks
(spec/40_channel_table_ops.md R91 to R94), in natural numbers (R102); the byte forms of the Register
Interface (spec/30_encoding.md R76); the compare values of the rows (spec/41_timer.md R115). -/

namespace Sys2Proof.Machine

/-- `us_to_ticks` (R91): floor division, the pre-roll taken off, rejected where 8 bits do not hold it. -/
def usToTicks (tickUs us : Nat) : Option Byte :=
  if us / tickUs < Config.preRollTicks then none
  else if us / tickUs - Config.preRollTicks > Config.maxTicks then none
  else some (BitVec.ofNat 8 (us / tickUs - Config.preRollTicks))

/-- `ticks_to_us` (R92). -/
def ticksToUs (tickUs : Nat) (pt : Byte) : Nat := (pt.toNat + Config.preRollTicks) * tickUs

/-- `deg_to_us` (R93), for `deg` in `0..180`. -/
def degToUs (c : Channel) (deg : Nat) : Nat :=
  c.minUs.toNat + deg * (c.maxUs.toNat - c.minUs.toNat) / 180

/-- `us_to_deg` (R94): to the nearest degree, halves up, not below 0, no upper clamp. -/
def usToDeg (c : Channel) (us : Nat) : Nat :=
  if us ≤ c.minUs.toNat then 0
  else
    ((us - c.minUs.toNat) * 360 + (c.maxUs.toNat - c.minUs.toNat)) / (2 * (c.maxUs.toNat - c.minUs.toNat))

/-- The largest angle `SET_POS` accepts (R98). -/
abbrev maxDegrees : Nat := 180

/-- The microseconds `GET_US` returns for a channel (R100); legal parameters keep them within 16 bits. -/
def widthUs (tickUs : Nat) (c : Channel) : Half := BitVec.ofNat 16 (ticksToUs tickUs c.pt)

/-- The degrees of a channel before any saturation (R101, R156). -/
def degreesOf (tickUs : Nat) (c : Channel) : Nat := usToDeg c (ticksToUs tickUs c.pt)

/-- The degrees `GET_POS` returns, saturated to 16 bits (R101). -/
def positionHalf (tickUs : Nat) (c : Channel) : Half := BitVec.ofNat 16 (min (degreesOf tickUs c) 65535)

/-- The degrees a `POSITION` register read returns, saturated to a byte (R156). -/
def positionByte (tickUs : Nat) (c : Channel) : Byte := BitVec.ofNat 8 (min (degreesOf tickUs c) 255)

/-- `zext_16` of an enable bit (R97). -/
def enableHalf (c : Channel) : Half := if c.en then 1#16 else 0#16

/-- The byte of an `ENABLE` register read (R154). -/
def enableByte (c : Channel) : Byte := if c.en then 0x01#8 else 0x00#8

/-- The byte the reset address and the undefined addresses read as (R151, R160). -/
abbrev noDataByte : Byte := 0xFF#8

/-- `CMP` after the `SetPinHigh` row: `PRE_ROLL_TICKS - ISR_TRIM_TICKS` (R126). -/
def preRollCompare (p : Params) : Byte := BitVec.ofNat 8 (Config.preRollTicks - p.isrTrimTicks.val)

/-- `CMP` after the short `SetPinLow` row (R128). -/
def shortCompare (pt : Byte) : Byte := BitVec.ofNat 8 (Config.maxTicks - (Config.preRollTicks + pt.toNat))

/-- `CMP` after the long `SetPinLow` row: the low 8 bits of the value (R129, R115). -/
def longCompare (pt : Byte) : Byte := BitVec.ofNat 8 (Config.frameTicks - (Config.preRollTicks + pt.toNat))

/-- `CMP` after the `WaitFrameEnd` row (R130). -/
def frameEndCompare : Byte := BitVec.ofNat 8 Config.maxTicks

/-- `CNT` after the `WaitPreRoll` row: the zero-pulse case starts one tick before the wrap (R127, R114). -/
def preRollCount (pt : Byte) : Byte := if pt = 0#8 then BitVec.ofNat 8 Config.maxTicks else 0#8

end Sys2Proof.Machine
end

