-- ==== Sys2Proof/Machine/Ops.lean ====
section
/-! DEFINITION. The shared operations: access to the Channel Table and the pins, when an agent has a step, an
answer and an error report, the entry of the compare-match handler, and reset. -/

namespace Sys2Proof.Machine

/-- The outcome of a step of this machine. -/
abbrev Result := Host.Outcome State Fault Refusal

/-! ## The Channel Table and the pins -/

/-- Record `k` of the Channel Table. Outside `0..N-1`, where no step of a state with `Inv` reads, a record as
after reset (log 12, DESIGN CHOICE). -/
def State.chan (s : State) (k : Nat) : Channel := (s.table[k]?).getD (Channel.atReset s.cfg)

/-- The record of the current channel. -/
def State.curChan (s : State) : Channel := s.chan s.cur

/-- The level of pin `k`; low outside `0..N-1` (log 12). -/
def State.pin (s : State) (k : Nat) : Bool := (s.pins[k]?).getD false

/-- `EN[k] <- v` (spec/10_state.md R23). -/
def State.setEn (s : State) (k : Nat) (v : Bool) : State :=
  { s with table := s.table.modify k fun c => { c with en := v } }

/-- `PT[k] <- v` (spec/10_state.md R24). -/
def State.setPt (s : State) (k : Nat) (v : Byte) : State :=
  { s with table := s.table.modify k fun c => { c with pt := v } }

/-- `PIN[k] <- v` (spec/10_state.md R32). -/
def State.setPin (s : State) (k : Nat) (v : Bool) : State := { s with pins := s.pins.set k v }

/-- The byte a register read of `addr` returns in this state (spec/30_encoding.md R74). -/
def State.regByte (s : State) (addr : Byte) : Byte :=
  match classify s.cfg addr with
  | .reset => noDataByte
  | .enable k => enableByte (s.chan k)
  | .position k => positionByte s.cfg.tickUs (s.chan k)
  | .ticks k => (s.chan k).pt
  | .undef => noDataByte

/-! ## Answers -/

/-- The step's outputs. -/
def State.withAnswer (s : State) (a : Answer) : State := { s with answer := some a }

/-- `status = Ok`, nothing returned. -/
def answerDone : Answer := { status := .ok, info := none, rdata := none, result := none }

/-- `status = Ok` and a byte on `rdata`. -/
def answerByte (b : Byte) : Answer := { status := .ok, info := none, rdata := some b, result := none }

/-- `status = Ok` and a value on `result`. -/
def answerValue (v : Half) : Answer := { status := .ok, info := none, rdata := none, result := some v }

/-- `raise X(info)` (spec/60_exceptions.md R170): the code of `X`, with what the failing step returns all the same. -/
def raised (x : Status) (info : Nat) (rdata : Option Byte) (result : Option Half) : Answer :=
  { status := x, info := some info, rdata := rdata, result := result }

/-- `raise X(info)`: the step ends and no state of the block is written; only the report is made (R170, R175). -/
def State.raise (s : State) (x : Status) (info : Nat) (rdata : Option Byte) (result : Option Half) : State :=
  s.withAnswer (raised x info rdata result)

/-! ## When an agent has a step -/

/-- A parameter set outside R6 and R7 is no instance of the hardware and has no step (spec/00_scope.md R8). -/
def onInstance (s : State) (next : State) : Result :=
  if s.cfg.valid then .next next else .refused .notAnInstance

/-- A Host step (R150): atomic, and enabled only when `RSTP = 0`. While a reset is pending the Host waits:
nothing happens and nothing is answered (R153, spec/70_reset_and_hazards.md R215; log 6, log 7). -/
def hostStep (s : State) (body : State → State) : Result :=
  onInstance s (if s.rstp then s else body s)

/-- A Channel Table operation: the index test comes first (spec/40_channel_table_ops.md R90). `onError` is
what the operation returns on `result` when the index is out of range. -/
def indexed (idx : Byte) (onError : Option Half) (s : State) (body : State → State) : State :=
  if idx.toNat < s.cfg.n then body s else s.raise .invalidIndex idx.toNat none onError

/-! ## Setting a pulse -/

/-- `SET_US` after its index test (R99), and what `SET_POS` delegates to (R98). -/
def storeWidth (k us : Nat) (s : State) : State :=
  match usToTicks s.cfg.tickUs us with
  | none => s.raise .invalidValue us none none
  | some pt => (s.setPt k pt).withAnswer answerDone

/-- `SET_POS` after its index test (R98). -/
def storeAngle (k deg : Nat) (s : State) : State :=
  if deg > maxDegrees then s.raise .invalidValue deg none none
  else storeWidth k (degToUs (s.chan k) deg) s

/-! ## The compare-match interrupt -/

/-- The row the handler would run now (spec/42_pulse_scheduler.md R125). -/
def State.row (s : State) : Row := rowOf s.ph s.curChan.pt

/-- The handler's step for `row` is enabled: `MF = 1`, and `PH` (with `PT[CUR]`) selects the row (R125). -/
def State.rowEnabled (s : State) (row : Row) : Bool := s.mf && decide (s.row = row)

/-- TAKING the one interrupt of the block (spec/60_exceptions.md R179): the event is consumed, `MF <- 0`
(spec/41_timer.md R118 (a)); nothing is saved, there is no vector, and the row `PH` names runs. There is no
return operation: the handler's step ends with its row (R180). -/
def State.enterHandler (s : State) : State := { s with mf := false }

/-- One step of the handler: where the row is enabled, entry and then the row; otherwise the handler has no
step and nothing happens (R125; log 6). -/
def handlerStep (s : State) (row : Row) (body : State → State) : Result :=
  onInstance s (if s.rowEnabled row then body s.enterHandler else s)

/-- What every row ends with: the compare write, the counter write and the next phase (spec/41_timer.md R114, R115). -/
def State.program (s : State) (cmp cnt : Byte) (ph : Phase) : State :=
  { s with cmp := cmp, cnt := cnt, ph := ph }

/-- Drive the current channel's pin to `level` if the channel is enabled; otherwise the pin is not written
(spec/42_pulse_scheduler.md R134). -/
def State.drivePin (s : State) (level : Bool) : State :=
  if s.curChan.en then s.setPin s.cur level else s

/-! ## Timer and reset -/

/-- The counting part of a tick (spec/41_timer.md R111). -/
def State.count (s : State) : State :=
  { s with cnt := s.cnt + 1#8, mf := matchFlag s.mf (s.cnt + 1#8) s.cmp }

/-- `RESET` (spec/70_reset_and_hazards.md R201): every piece of state at its reset value. What the surroundings
have announced is theirs and stays; the match they may be late for is gone. -/
def State.resetNow (s : State) : State := State.resetIn s.cfg { s.env with late := 0 }

end Sys2Proof.Machine
end

