-- ==== Sys2Proof/Machine/ChannelTable.lean ====
section
/-! DEFINITION. The Channel Table operations (spec/40_channel_table_ops.md R95 to R101) and the unassigned
opcodes (spec/30_encoding.md R78). -/

namespace Sys2Proof.Machine

/-- `ENABLE` (R95). -/
def execEnable (idx : Byte) (_arg : Half) (s : State) : Result :=
  hostStep s fun s => indexed idx none s fun s => (s.setEn idx.toNat true).withAnswer answerDone

/-- `DISABLE` (R96). -/
def execDisable (idx : Byte) (_arg : Half) (s : State) : Result :=
  hostStep s fun s => indexed idx none s fun s => (s.setEn idx.toNat false).withAnswer answerDone

/-- `IS_ENABLED` (R97). -/
def execIsEnabled (idx : Byte) (_arg : Half) (s : State) : Result :=
  hostStep s fun s => indexed idx (some 0#16) s fun s =>
    s.withAnswer (answerValue (enableHalf (s.chan idx.toNat)))

/-- `SET_POS` (R98). -/
def execSetPos (idx : Byte) (arg : Half) (s : State) : Result :=
  hostStep s fun s => indexed idx none s fun s => storeAngle idx.toNat arg.toNat s

/-- `GET_POS` (R101). -/
def execGetPos (idx : Byte) (_arg : Half) (s : State) : Result :=
  hostStep s fun s => indexed idx (some 0#16) s fun s =>
    s.withAnswer (answerValue (positionHalf s.cfg.tickUs (s.chan idx.toNat)))

/-- `SET_US` (R99). -/
def execSetUs (idx : Byte) (arg : Half) (s : State) : Result :=
  hostStep s fun s => indexed idx none s fun s => storeWidth idx.toNat arg.toNat s

/-- `GET_US` (R100). -/
def execGetUs (idx : Byte) (_arg : Half) (s : State) : Result :=
  hostStep s fun s => indexed idx (some 0#16) s fun s =>
    s.withAnswer (answerValue (widthUs s.cfg.tickUs (s.chan idx.toNat)))

/-- OP words with opcode 0x7 (R78): the opcode is tested before the index (spec/60_exceptions.md R174). -/
def execOpUndef7 (_idx : Byte) (_arg : Half) (s : State) : Result :=
  hostStep s fun s => s.raise .unrecognizedAddress 7 none (some 0#16)

/-- OP words with opcodes 0x8 to 0xF (R78); the report records the opcode. -/
def execOpUndef8F (low : BitVec 3) (_idx : Byte) (_arg : Half) (s : State) : Result :=
  hostStep s fun s => s.raise .unrecognizedAddress (8 + low.toNat) none (some 0#16)

end Sys2Proof.Machine
end

