-- ==== Sys2Proof/Machine/Events.lean ====
section
/-! DEFINITION. The two external events: the tick (spec/41_timer.md R111, R120) and the power-on reset
(spec/70_reset_and_hazards.md R200, R201). -/

namespace Sys2Proof.Machine

/-- The tick with a commanded reset pending: the tick that finds `RSTC = 1` resets and does nothing else (R111, R120). -/
def State.tickPending (s : State) : State :=
  if s.rstc = 1 then s.resetNow else { s with rstc := s.rstc - 1 }.count

/-- `TICK` (R111). -/
def execTick (s : State) : Result := onInstance s (if s.rstp then s.tickPending else s.count)

/-- `POR` (R200, R201): enabled in every state. -/
def execPor (s : State) : Result := onInstance s s.resetNow

end Sys2Proof.Machine
end

