-- ==== Sys2Proof/Machine/RegisterInterface.lean ====
section
/-! DEFINITION. The register transactions (spec/43_register_interface.md R150 to R163). -/

namespace Sys2Proof.Machine

/-- `RD.RESET` (R151). -/
def execRdReset (_data : Byte) (s : State) : Result :=
  hostStep s fun s => s.withAnswer (answerByte noDataByte)

/-- `WR.RESET.Z` (R152). -/
def execWrResetZ (s : State) : Result :=
  hostStep s fun s => s.withAnswer answerDone

/-- `WR.RESET.NZ` (R153): the commanded reset begins; the value of the byte does not matter. -/
def execWrResetNz (_data : Byte) (s : State) : Result :=
  hostStep s fun s =>
    { s with rstp := true, rstc := s.cfg.resetDelayTicks, answer := some answerDone }

/-- `RD.ENABLE` (R154). -/
def execRdEnable (k : BitVec 4) (_data : Byte) (s : State) : Result :=
  hostStep s fun s => s.withAnswer (answerByte (enableByte (s.chan k.toNat)))

/-- `WR.ENABLE` (R155): any nonzero byte enables. -/
def execWrEnable (k : BitVec 4) (data : Byte) (s : State) : Result :=
  hostStep s fun s => (s.setEn k.toNat (data != 0#8)).withAnswer answerDone

/-- `RD.POSITION` (R156): saturated to a byte. -/
def execRdPosition (k : BitVec 4) (_data : Byte) (s : State) : Result :=
  hostStep s fun s => s.withAnswer (answerByte (positionByte s.cfg.tickUs (s.chan k.toNat)))

/-- `WR.POSITION` (R157): `SET_POS` with the byte as degrees. -/
def execWrPosition (k : BitVec 4) (data : Byte) (s : State) : Result :=
  hostStep s fun s => storeAngle k.toNat data.toNat s

/-- `RD.TICKS` (R158). -/
def execRdTicks (k : BitVec 4) (_data : Byte) (s : State) : Result :=
  hostStep s fun s => s.withAnswer (answerByte (s.chan k.toNat).pt)

/-- `WR.TICKS` (R159): every byte is accepted. -/
def execWrTicks (k : BitVec 4) (data : Byte) (s : State) : Result :=
  hostStep s fun s => (s.setPt k.toNat data).withAnswer answerDone

/-- `RD.UNDEF` (R160): reported, and `0xFF` all the same. -/
def execRdUndef (addr _data : Byte) (s : State) : Result :=
  hostStep s fun s => s.raise .unrecognizedAddress addr.toNat (some noDataByte) none

/-- `WR.UNDEF` (R161): reported, no state change. -/
def execWrUndef (addr _data : Byte) (s : State) : Result :=
  hostStep s fun s => s.raise .unrecognizedAddress addr.toNat none none

end Sys2Proof.Machine
end

