-- ==== Sys2Proof/Machine/Scheduler.lean ====
section
/-! DEFINITION. The Pulse Scheduler: the rows of the handler (spec/42_pulse_scheduler.md R125 to R130). -/

namespace Sys2Proof.Machine

/-- `CUR <- (CUR + 1) mod N` (R126, R132). -/
def State.advanceChannel (s : State) : State := { s with cur := (s.cur + 1) % s.cfg.n }

/-- Row `SetPinHigh` (R126): the channel advances before the row uses it. -/
def execIsrSetPinHigh (s : State) : Result :=
  handlerStep s .setPinHigh fun s =>
    (s.advanceChannel.drivePin true).program (preRollCompare s.cfg) 0#8 .waitPreRoll

/-- Row `WaitPreRoll` (R127). The explicit clear of `MF` in the nonzero case (spec/41_timer.md R118 (b)) clears a flag
that entry has cleared. -/
def execIsrWaitPreRoll (s : State) : Result :=
  handlerStep s .waitPreRoll fun s =>
    { s.program s.curChan.pt (preRollCount s.curChan.pt) .setPinLow with
      mf := if s.curChan.pt = 0#8 then s.mf else false }

/-- Row `SetPinLow`, short pulse (R128). -/
def execIsrSetPinLowShort (s : State) : Result :=
  handlerStep s .setPinLowShort fun s =>
    (s.drivePin false).program (shortCompare s.curChan.pt) 0#8 .waitFrameEnd

/-- Row `SetPinLow`, long pulse (R129). -/
def execIsrSetPinLowLong (s : State) : Result :=
  handlerStep s .setPinLowLong fun s =>
    (s.drivePin false).program (longCompare s.curChan.pt) 0#8 .setPinHigh

/-- Row `WaitFrameEnd` (R130). -/
def execIsrWaitFrameEnd (s : State) : Result :=
  handlerStep s .waitFrameEnd fun s => s.program frameEndCompare 0#8 .setPinHigh

end Sys2Proof.Machine
end

