-- ==== Sys2Proof/Machine/Dispatch.lean ====
section
/-! DEFINITION. One arm per instruction. -/

namespace Sys2Proof.Machine

def exec (i : Instr) (s : State) : Host.Outcome State Fault Refusal :=
  match i with
  | .rdReset data => Sys2Proof.Machine.execRdReset data s
  | .wrResetZ => Sys2Proof.Machine.execWrResetZ s
  | .wrResetNz data => Sys2Proof.Machine.execWrResetNz data s
  | .rdEnable k data => Sys2Proof.Machine.execRdEnable k data s
  | .wrEnable k data => Sys2Proof.Machine.execWrEnable k data s
  | .rdPosition k data => Sys2Proof.Machine.execRdPosition k data s
  | .wrPosition k data => Sys2Proof.Machine.execWrPosition k data s
  | .rdTicks k data => Sys2Proof.Machine.execRdTicks k data s
  | .wrTicks k data => Sys2Proof.Machine.execWrTicks k data s
  | .rdUndef addr data => Sys2Proof.Machine.execRdUndef addr data s
  | .wrUndef addr data => Sys2Proof.Machine.execWrUndef addr data s
  | .enable idx arg => Sys2Proof.Machine.execEnable idx arg s
  | .disable idx arg => Sys2Proof.Machine.execDisable idx arg s
  | .isEnabled idx arg => Sys2Proof.Machine.execIsEnabled idx arg s
  | .setPos idx arg => Sys2Proof.Machine.execSetPos idx arg s
  | .getPos idx arg => Sys2Proof.Machine.execGetPos idx arg s
  | .setUs idx arg => Sys2Proof.Machine.execSetUs idx arg s
  | .getUs idx arg => Sys2Proof.Machine.execGetUs idx arg s
  | .opUndef7 idx arg => Sys2Proof.Machine.execOpUndef7 idx arg s
  | .opUndef8F low idx arg => Sys2Proof.Machine.execOpUndef8F low idx arg s
  | .isrSetPinHigh => Sys2Proof.Machine.execIsrSetPinHigh s
  | .isrWaitPreRoll => Sys2Proof.Machine.execIsrWaitPreRoll s
  | .isrSetPinLowShort => Sys2Proof.Machine.execIsrSetPinLowShort s
  | .isrSetPinLowLong => Sys2Proof.Machine.execIsrSetPinLowLong s
  | .isrWaitFrameEnd => Sys2Proof.Machine.execIsrWaitFrameEnd s
  | .tick => Sys2Proof.Machine.execTick s
  | .por => Sys2Proof.Machine.execPor s

end Sys2Proof.Machine
end

