-- ==== Sys2Proof/Machine/Schedule.lean ====
section
/-! DEFINITION. Which agent steps next, and the word it is given: the block's counterpart of a fetch
(spec/00_scope.md R9, spec/20_memory.md R58, spec/60_exceptions.md R178). -/

namespace Sys2Proof.Machine

/-- What the next turn comes to. -/
inductive Pick where
  /-- the word `w` arrives at its port in the state `s` -/
  | run (w : PortWord) (s : State)
  /-- the agent whose turn it is has no step; the turn passes (log 6) -/
  | idle (s : State)
  deriving DecidableEq, Repr

/-- The word stands for this on the instance and in this state: the decoder knows the port's format (R80), and
for the phase it sees the pulse of the current channel (R125). -/
def State.decoded (s : State) (w : PortWord) : Instr := decode s.cfg s.curChan.pt w

/-- The bound of R178 (a) is used up: with `MF = 1` no further tick may come before the handler. -/
def State.handlerDue (s : State) : Bool := s.mf && decide (s.cfg.maxLatencyTicks ≤ s.env.late)

/-- The surroundings with `rest` still to come. -/
def State.withSched (s : State) (rest : List Turn) : State := { s with env := { s.env with sched := rest } }

/-- A tick, counted against the latency bound if `MF = 1` already (R178 (a)). -/
def tickTurn (rest : List Turn) (s : State) : Pick :=
  .run (.ev 0#1)
    { s with env := { s.env with sched := rest, late := if s.mf then s.env.late + 1 else 0 } }

/-- The handler: the word it decodes is the phase itself (R73, R79). -/
def handlerTurn (rest : List Turn) (s : State) : Pick :=
  .run (.ph s.ph.code) { s with env := { s.env with sched := rest, late := 0 } }

/-- The Host: its first offered word, unless a reset is pending (R153) or nothing is offered. A word offered
while a reset is pending stays at the port (R215, log 7). -/
def hostTurn (rest : List Turn) (s : State) : Pick :=
  if s.rstp then .idle (s.withSched rest)
  else
    match s.env.hostPort with
    | [] => .idle (s.withSched rest)
    | w :: ws => .run w.toPort { s with env := { s.env with sched := rest, hostPort := ws } }

/-- The next turn. With none announced: the handler if `MF = 1`, else a tick, which is `run` of R82 (log 4). A
power-on reset goes before everything (R200); a tick that the latency bound forbids waits for the handler (log 5). -/
def pick (s : State) : Pick :=
  match s.env.sched with
  | [] => if s.mf then handlerTurn [] s else tickTurn [] s
  | .powerOn :: rest => .run (.ev 1#1) (s.withSched rest)
  | .timer :: rest => if s.handlerDue then handlerTurn (.timer :: rest) s else tickTurn rest s
  | .scheduler :: rest => if s.mf then handlerTurn rest s else .idle (s.withSched rest)
  | .host :: rest => hostTurn rest s

/-- The state with the word `w` as what the very next step takes: it stands at its port and its agent has the
turn and a step. A Host word needs `RSTP = 0`; a phase word needs to be `PH` and `MF = 1`; a tick needs that the
handler is not due (log 9). -/
def State.presenting (s : State) : PortWord → State
  | .reg w =>
    { s with
      rstp := false, rstc := 0,
      env := { s.env with sched := .host :: s.env.sched, hostPort := .reg w :: s.env.hostPort } }
  | .op w =>
    { s with
      rstp := false, rstc := 0,
      env := { s.env with sched := .host :: s.env.sched, hostPort := .op w :: s.env.hostPort } }
  | .ph w =>
    { s with
      ph := phaseOfCode w, mf := true,
      env := { s.env with sched := .scheduler :: s.env.sched } }
  | .ev w =>
    if w = 0#1 then
      { s with
        mf := s.mf && !s.handlerDue,
        env := { s.env with sched := .timer :: s.env.sched } }
    else { s with env := { s.env with sched := .powerOn :: s.env.sched } }

/-- `State.presenting` for a word given as a number; a number that is no word changes nothing. -/
def State.presentingNumber (s : State) (nbits w : Nat) : State :=
  match portWordOf nbits w with
  | .ok pw => s.presenting pw
  | .error _ => s

end Sys2Proof.Machine
end

