-- ==== Sys2Proof/Machine/Step.lean ====
section
/-! DEFINITION. One step of the machine: the next turn's word is decoded and executed. -/

namespace Sys2Proof.Machine

/-- One step. A parameter set outside R6 and R7 has none (spec/00_scope.md R8). -/
def step (s : State) : Host.Outcome State Fault Refusal :=
  if s.cfg.valid then
    match pick s with
    | .run w t => exec (t.decoded w) t
    | .idle t => .next t
  else .refused .notAnInstance

/-- `s` with an instruction of spec/opcode_table.json, bits `w`, as what the very next step runs. -/
def State.withFetchWord (s : State) (nbits w : Nat) : State := s.presentingNumber nbits w

end Sys2Proof.Machine
end

