-- ==== Sys2Proof/Machine/Bus.lean ====
section
/-! DEFINITION. The primitives over the register address space (spec/43_register_interface.md R150,
spec/20_memory.md R50, R51). -/

namespace Sys2Proof.Machine

/-- `RegRead(addr)` (R150). -/
def regRead (addr : Byte) (s : State) : Result := exec (decodeReg s.cfg (regWord false addr 0#8)) s

/-- `RegWrite(addr, v)` (R150). -/
def regWrite (addr v : Byte) (s : State) : Result := exec (decodeReg s.cfg (regWord true addr v)) s

/-- `MemRead(addr, n)` (R51): one byte is the only width. -/
def memRead (addr : Byte) (bytes : Nat) (s : State) : Result :=
  if bytes = 1 then regRead addr s else .refused (.accessWidth bytes)

/-- `MemWrite(addr, n, v)` (R50, R51): one byte is the only width. `RegWrite` takes a byte and the spec gives a `v`
above `0xFF` no meaning: the low 8 bits are written (log 18, DESIGN CHOICE). -/
def memWrite (addr : Byte) (bytes v : Nat) (s : State) : Result :=
  if bytes = 1 then regWrite addr (BitVec.ofNat 8 v) s else .refused (.accessWidth bytes)

end Sys2Proof.Machine
end

