-- ==== Sys2Proof/Machine/Script.lean ====
section
/-! DEFINITION. The text notation's lines and its pseudo-operations (spec/30_encoding.md R81, R82). -/

namespace Sys2Proof.Machine

/-- One step after another. -/
def andThen (r : Result) (f : State → Result) : Result :=
  match r with
  | .next s => f s
  | .fault e => .fault e
  | .refused e => .refused e

/-- `isr` (R81): one step of the handler, the row that `PH` selects. -/
def isr (s : State) : Result := exec s.row.instr s

/-- One round of `run`: a tick, then the handler if `MF = 1` (R82). -/
def tickRound (s : State) : Result := andThen (exec .tick s) fun t => if t.mf then isr t else .next t

/-- `run n`: the zero-latency schedule for `n` ticks (R82). -/
def run : Nat → State → Result
  | 0, s => .next s
  | n + 1, s => andThen (run n s) tickRound

/-- `n` ticks with no step of another agent between them. -/
def ticks : Nat → State → Result
  | 0, s => .next s
  | n + 1, s => andThen (ticks n s) (exec .tick)

/-- `next` with at most `fuel` ticks: ticks until `MF = 1`, then the handler (R82). -/
def nextWithin : Nat → State → Result
  | 0, s => if s.mf then isr s else .next s
  | fuel + 1, s => if s.mf then isr s else andThen (exec .tick s) (nextWithin fuel)

/-- `next` (R82): ticks until `MF = 1`, then the handler; no tick where `MF = 1` already (log 19, DEDUCED). The
bound cuts nothing off: a match comes within 256 ticks (spec/41_timer.md R116), unless a pending reset comes
before it, and then within 256 ticks of the reset. -/
def nextEvent (s : State) : Result := nextWithin 512 s

/-- A line of the notation (R81), with the pseudo-operations `run` and `next` (R82). -/
inductive Line where
  | rd (addr : Byte)
  | wr (addr v : Byte)
  | enable (idx : Byte)
  | disable (idx : Byte)
  | isEnabled (idx : Byte)
  | setPos (idx : Byte) (degrees : Half)
  | getPos (idx : Byte)
  | setUs (idx : Byte) (us : Half)
  | getUs (idx : Byte)
  | tick
  | isr
  | por
  | run (n : Nat)
  | next
  deriving DecidableEq, Repr

/-- The word of a line that is one step, in the state it is given in (R81: `isr` is the current `PH`). -/
def Line.word? (s : State) : Line → Option PortWord
  | .rd a => some (.reg (regWord false a 0#8))
  | .wr a v => some (.reg (regWord true a v))
  | .enable i => some (.op (opWord 0x0#4 i 0#16))
  | .disable i => some (.op (opWord 0x1#4 i 0#16))
  | .isEnabled i => some (.op (opWord 0x2#4 i 0#16))
  | .setPos i d => some (.op (opWord 0x3#4 i d))
  | .getPos i => some (.op (opWord 0x4#4 i 0#16))
  | .setUs i u => some (.op (opWord 0x5#4 i u))
  | .getUs i => some (.op (opWord 0x6#4 i 0#16))
  | .tick => some (.ev 0#1)
  | .isr => some (.ph s.ph.code)
  | .por => some (.ev 1#1)
  | .run _ => none
  | .next => none

/-- What a line does. -/
def Line.perform (l : Line) (s : State) : Result :=
  match l.word? s with
  | some w => exec (s.decoded w) s
  | none =>
    match l with
    | .run n => Sys2Proof.Machine.run n s
    | .next => nextEvent s
    | _ => .next s

/-- What a list of lines does, one after the other. -/
def performAll : List Line → State → Result
  | [], s => .next s
  | l :: ls, s => andThen (l.perform s) (performAll ls)

end Sys2Proof.Machine
end

