-- ==== Sys2Proof/Safety.lean ====
section
/-! DEFINITION. What a sound state is (spec/10_state.md R37), the frames the claims name, and the intervals the
timing rules speak of, in the spec's numbers. -/

namespace Sys2Proof.Machine

/-- The invariants of R37 with what they rest on: a legal instance, arrays of `N` entries, the ranges of every
channel at the instance's (R25), and the latency bound (R178 (a)) on the model's own `env.late`. -/
structure State.Inv (s : State) : Prop where
  instance_valid : s.cfg.valid = true
  table_length : s.table.length = s.cfg.n
  pins_length : s.pins.length = s.cfg.n
  cur_lt : s.cur < s.cfg.n
  ranges : ∀ c ∈ s.table, c.minUs = s.cfg.rangeMinUs ∧ c.maxUs = s.cfg.rangeMaxUs
  idle_count : s.rstp = false → s.rstc = 0
  pending_count : s.rstp = true → 1 ≤ s.rstc ∧ s.rstc ≤ s.cfg.resetDelayTicks
  latency : s.env.late ≤ s.cfg.maxLatencyTicks

/-- `s` is reached: some number of steps leads to it from the reset of a legal instance, in surroundings that
announce any turns and any Host words. -/
def State.Reached (s : State) : Prop :=
  ∃ p env n, p.valid = true ∧ env.late ≤ p.maxLatencyTicks ∧
    Sys2Proof.core.run n (State.resetIn p env) = .next s

/-! ## Frames -/

/-- Every location of the register address space reads as before. -/
def sameRegisters (s t : State) : Prop := ∀ a, t.regByte a = s.regByte a

/-- Nothing but the answer differs, and every register reads as before. -/
def onlyAnswered (s t : State) : Prop := { t with answer := s.answer } = s ∧ sameRegisters s t

/-- Nothing but `EN[k]` and the answer differs: `EN[k]` is `v`, every other record and every other field of record
`k` is as before, and every address but `ENABLE[k]` reads as before. -/
def wroteEnable (k : Nat) (v : Bool) (s t : State) : Prop :=
  { t with table := s.table, answer := s.answer } = s ∧ t.table.length = s.table.length ∧
    (∀ j, t.chan j = if j = k then { s.chan k with en := v } else s.chan j) ∧
    ∀ a, classify s.cfg a ≠ .enable k → t.regByte a = s.regByte a

/-- Nothing but `PT[k]` and the answer differs: `PT[k]` is `v`, every other record and every other field of record
`k` is as before, and every address but `TICKS[k]` and `POSITION[k]` reads as before. -/
def wrotePulse (k v : Nat) (s t : State) : Prop :=
  { t with table := s.table, answer := s.answer } = s ∧ t.table.length = s.table.length ∧
    (t.chan k).pt.toNat = v ∧
    (∀ j, t.chan j = if j = k then { s.chan k with pt := (t.chan k).pt } else s.chan j) ∧
    ∀ a, classify s.cfg a ≠ .ticks k → classify s.cfg a ≠ .position k → t.regByte a = s.regByte a

/-- Nothing but what the handler writes differs: `PH`, `CUR`, `CNT`, `CMP`, `MF` and the pins (R35); every register
reads as before. -/
def onlyHandled (s t : State) : Prop :=
  { t with ph := s.ph, cur := s.cur, cnt := s.cnt, cmp := s.cmp, mf := s.mf, pins := s.pins } = s ∧
    t.pins.length = s.pins.length ∧ sameRegisters s t

/-- Nothing but the counter and the flag differs; every register reads as before. -/
def onlyCounted (s t : State) : Prop := { t with cnt := s.cnt, mf := s.mf } = s ∧ sameRegisters s t

/-- The step is the reset: `POR`, or the tick that finds `RSTC = 1` (R200). -/
def isReset (i : Instr) (s : State) : Prop := i = .por ∨ (i = .tick ∧ s.rstp = true ∧ s.rstc = 1)

/-- The reads of both ports: what R55 calls reads. -/
def isRead : Instr → Bool
  | .rdReset _ => true
  | .rdEnable _ _ => true
  | .rdPosition _ _ => true
  | .rdTicks _ _ => true
  | .rdUndef _ _ => true
  | .isEnabled _ _ => true
  | .getPos _ _ => true
  | .getUs _ _ => true
  | .wrResetZ => false
  | .wrResetNz _ => false
  | .wrEnable _ _ => false
  | .wrPosition _ _ => false
  | .wrTicks _ _ => false
  | .wrUndef _ _ => false
  | .enable _ _ => false
  | .disable _ _ => false
  | .setPos _ _ => false
  | .setUs _ _ => false
  | .opUndef7 _ _ => false
  | .opUndef8F _ _ _ => false
  | .isrSetPinHigh => false
  | .isrWaitPreRoll => false
  | .isrSetPinLowShort => false
  | .isrSetPinLowLong => false
  | .isrWaitFrameEnd => false
  | .tick => false
  | .por => false

/-- The channel whose `EN` bit the instruction is the write of: its channel operand (R23). -/
def enableTarget? : Instr → Option Nat
  | .rdReset _ => none
  | .wrResetZ => none
  | .wrResetNz _ => none
  | .rdEnable _ _ => none
  | .wrEnable k _ => some k.toNat
  | .rdPosition _ _ => none
  | .wrPosition _ _ => none
  | .rdTicks _ _ => none
  | .wrTicks _ _ => none
  | .rdUndef _ _ => none
  | .wrUndef _ _ => none
  | .enable idx _ => some idx.toNat
  | .disable idx _ => some idx.toNat
  | .isEnabled _ _ => none
  | .setPos _ _ => none
  | .getPos _ _ => none
  | .setUs _ _ => none
  | .getUs _ _ => none
  | .opUndef7 _ _ => none
  | .opUndef8F _ _ _ => none
  | .isrSetPinHigh => none
  | .isrWaitPreRoll => none
  | .isrSetPinLowShort => none
  | .isrSetPinLowLong => none
  | .isrWaitFrameEnd => none
  | .tick => none
  | .por => none

/-- The channel whose `PT` field the instruction is the write of: its channel operand (R24). -/
def pulseTarget? : Instr → Option Nat
  | .rdReset _ => none
  | .wrResetZ => none
  | .wrResetNz _ => none
  | .rdEnable _ _ => none
  | .wrEnable _ _ => none
  | .rdPosition _ _ => none
  | .wrPosition k _ => some k.toNat
  | .rdTicks _ _ => none
  | .wrTicks k _ => some k.toNat
  | .rdUndef _ _ => none
  | .wrUndef _ _ => none
  | .enable _ _ => none
  | .disable _ _ => none
  | .isEnabled _ _ => none
  | .setPos idx _ => some idx.toNat
  | .getPos _ _ => none
  | .setUs idx _ => some idx.toNat
  | .getUs _ _ => none
  | .opUndef7 _ _ => none
  | .opUndef8F _ _ _ => none
  | .isrSetPinHigh => none
  | .isrWaitPreRoll => none
  | .isrSetPinLowShort => none
  | .isrSetPinLowLong => none
  | .isrWaitFrameEnd => none
  | .tick => none
  | .por => none

/-! ## Intervals, in the spec's numbers -/

/-- `wait(c0, v)` (spec/41_timer.md R113). -/
def waitTicks (c0 v : Nat) : Nat := (v + 255 - c0) % 256 + 1

/-- The slot's length in ticks for `PT = pt` and `ISR_TRIM_TICKS = t` (spec/42_pulse_scheduler.md R136). -/
def slotTicks (t pt : Nat) : Nat :=
  if pt = 0 then 511 - t else if pt ≤ 190 then 510 - t else if pt = 191 then 766 - t else 512 - t

/-- The high time in ticks for `PT = pt` and `ISR_TRIM_TICKS = t` (R137). -/
def highTicks (t pt : Nat) : Nat := if pt = 0 then (64 - t) + 1 else (64 - t) + pt

/-- The state right after a `SetPinHigh` row: the slot of channel `CUR` begins (R126). -/
def State.slotStart (s : State) : Prop :=
  s.ph = .waitPreRoll ∧ s.cnt = 0#8 ∧ s.cmp.toNat = 64 - s.cfg.isrTrimTicks.val ∧ s.mf = false

end Sys2Proof.Machine
end

