-- ==== Sys2Proof/Certificates/Slice0/Obligations.lean ====
section
/-! DEFINITION. The statements for the provers. The rules each one rests on stand in its docstring; their
titles and full texts are in OBLIGATIONS.json. -/

open Sys2Proof Sys2Proof.Machine

/-- For every legal parameter set and surroundings within the latency bound, the state after reset satisfies the
invariant State.Inv; so does State.reset. (R36, R37) -/
def Obligations.ResetStateIsSound : Prop :=
  (∀ p env, p.valid = true → env.late ≤ p.maxLatencyTicks → (State.resetIn p env).Inv) ∧
    State.reset.Inv

/-- On a legal instance POR answers a next state with EN 0, PT INIT_PULSE_TICKS, MIN_US and MAX_US the range
parameters, PIN 0 for every channel, PH SetPinHigh, CUR INIT_CHANNEL, CNT, CMP, MF, RSTP and RSTC 0; the
parameters stay. The tick that finds RSTP = 1 and RSTC = 1 has the same outcome. Beyond R201, model's choice
(logs 3 and 8): the turns and words announced stay and the answer record is cleared. (R36, R200, R201) -/
def Obligations.PowerOnResetWritesEveryResetValue : Prop :=
  ∀ s : State, s.cfg.valid = true →
    (∃ t, exec .por s = .next t ∧ t.table.length = s.cfg.n ∧ t.pins.length = s.cfg.n ∧
      (∀ k < s.cfg.n, (t.chan k).en = false ∧ (t.chan k).pt = s.cfg.initPulseTicks ∧
        (t.chan k).minUs = s.cfg.rangeMinUs ∧ (t.chan k).maxUs = s.cfg.rangeMaxUs ∧ t.pin k = false) ∧
      t.ph = .setPinHigh ∧ t.cur = s.cfg.initChannel ∧ t.cnt = 0#8 ∧ t.cmp = 0#8 ∧ t.mf = false ∧
      t.rstp = false ∧ t.rstc = 0 ∧ t.cfg = s.cfg ∧ t.answer = none ∧
      t.env.sched = s.env.sched ∧ t.env.hostPort = s.env.hostPort) ∧
    (s.rstp = true → s.rstc = 1 → exec .tick s = exec .por s)

/-- From every state that satisfies State.Inv (legal parameters, arrays of N entries, CUR < N, every range at
the instance's, RSTP and RSTC related as R37 says, the latency bound), whatever turns and words the
surroundings announce, a step that answers a next state answers one that satisfies it again, with the same
parameters. The latency clause is on the model's own env.late (log 5). (R25, R34, R37, R178) -/
def Obligations.EveryStepKeepsSoundness : Prop :=
  ∀ s t : State, s.Inv → step s = .next t → t.Inv ∧ t.cfg = s.cfg

/-- In every state that some number of steps reaches from the reset of a legal instance, in surroundings that
announce any turns and Host words: PT, CNT and CMP in 0..255, CUR in 0..N-1, PH one of the four phases,
MIN_US[k] < MAX_US[k] for every channel, RSTP = 0 implies RSTC = 0, RSTP = 1 implies 1 <= RSTC <=
RESET_DELAY_TICKS. (R37) -/
def Obligations.ReachedStatesKeepTheInvariantsOfR37 : Prop :=
  ∀ s : State, s.Reached →
    (∀ k < s.cfg.n, k < s.table.length ∧ (s.chan k).pt.toNat ≤ 255 ∧
      (s.chan k).minUs.toNat < (s.chan k).maxUs.toNat) ∧
    s.cur < s.cfg.n ∧ s.ph ∈ [.setPinHigh, .waitPreRoll, .setPinLow, .waitFrameEnd] ∧
    s.cnt.toNat ≤ 255 ∧ s.cmp.toNat ≤ 255 ∧
    (s.rstp = false → s.rstc = 0) ∧
    (s.rstp = true → 1 ≤ s.rstc ∧ s.rstc ≤ s.cfg.resetDelayTicks)

/-- For every legal parameter set (any N, any legal addresses), every pulse the handler may see and every
instruction well-formed for them, with every operand at every value its encoding admits, decoding its word
gives the instruction back. (R71, R72, R73, R75, R77, R79) -/
def Obligations.DecodingAnEncodedInstructionGivesItBack : Prop :=
  ∀ (p : Params) (pt : Byte) (i : Instr), p.valid = true → i.wellFormed p pt = true →
    decode p pt (encode p i) = i

/-- For every legal parameter set, every pulse and every word of the four formats, the instruction decoded is
well-formed (in particular its channel is below N) and encodes to that very word: no bit of a word is
dropped and no two words mean the same. (R70, R75, R78) -/
def Obligations.EncodingADecodedWordGivesItBack : Prop :=
  ∀ (p : Params) (pt : Byte) (w : PortWord), p.valid = true →
    (decode p pt w).wellFormed p pt = true ∧ encode p (decode p pt w) = w

/-- One or more words of each format, written from R71 to R73, R77 and R79 (they stand as examples in R98, R99,
R155, R157 and R159), decode on the reference instance to the instruction they stand for. A sanity
statement. (R71, R72, R73, R74, R77, R79) -/
def Obligations.SampleWordsDecodeAsListed : Prop :=
  ∀ (trim : Fin 64) (delay lat : Nat) (pt : Byte),
    decode (Params.reference trim delay lat) pt (.reg 0x1205A#17) = .wrPosition 0#4 90#8 ∧
    decode (Params.reference trim delay lat) pt (.reg 0x131C8#17) = .wrTicks 1#4 200#8 ∧
    decode (Params.reference trim delay lat) pt (.reg 0x01100#17) = .rdEnable 1#4 0#8 ∧
    decode (Params.reference trim delay lat) pt (.reg 0x01400#17) = .rdUndef 0x14#8 0#8 ∧
    decode (Params.reference trim delay lat) pt (.op 0x300005A#28) = .setPos 0#8 90#16 ∧
    decode (Params.reference trim delay lat) pt (.op 0x50105DC#28) = .setUs 1#8 1500#16 ∧
    decode (Params.reference trim delay lat) pt (.op 0xFC80000#28) = .opUndef8F 7#3 200#8 0#16 ∧
    decode (Params.reference trim delay lat) pt (.ph 0b01#2) = .isrWaitPreRoll ∧
    decode (Params.reference trim delay lat) pt (.ev 0#1) = .tick ∧
    decode (Params.reference trim delay lat) pt (.ev 1#1) = .por

/-- For every legal parameter set whose four addresses are 0x00, 0x10, 0x20 and 0x30 (any N up to 16), an
address is RESET exactly at 0x00, of class ENABLE, POSITION or TICKS with channel addr[3:0] when addr[7:4]
is 1, 2 or 3 and addr[3:0] < N, and undefined otherwise. (R64, R74, R75) -/
def Obligations.ReferenceMapIsTheHighNibble : Prop :=
  ∀ (p : Params) (a : Byte), p.valid = true → p.addrReset = 0x00#8 → p.baseEnable = 0x10#8 →
    p.basePosition = 0x20#8 → p.baseTicks = 0x30#8 →
    classify p a =
      if a.toNat = 0 then .reset
      else if a.toNat / 16 = 1 ∧ a.toNat % 16 < p.n then .enable (a.toNat % 16)
      else if a.toNat / 16 = 2 ∧ a.toNat % 16 < p.n then .position (a.toNat % 16)
      else if a.toNat / 16 = 3 ∧ a.toNat % 16 < p.n then .ticks (a.toNat % 16)
      else .undef

/-- On a legal instance: a power-on turn runs POR; a timer turn that the latency bound allows runs TICK, after
the model has counted how late the handler is; a scheduler turn with MF = 1 runs the row that PH (and
PT[CUR]) selects; a Host turn with RSTP = 0 runs the instruction its first offered word decodes to and takes
the word off the port. Each turn is used up. The turns and the port queue are the model's way to say the
interleaving (logs 3 and 5). (R9, R58, R80, R125, R178, R200) -/
def Obligations.StepRunsTheDecodedInstruction : Prop :=
  ∀ (s : State) (rest : List Turn), s.cfg.valid = true →
    (s.env.sched = .powerOn :: rest →
      step s = exec .por { s with env := { s.env with sched := rest } }) ∧
    (s.env.sched = .timer :: rest → (s.mf = true → s.env.late < s.cfg.maxLatencyTicks) →
      step s = exec .tick
        { s with env := { s.env with sched := rest, late := if s.mf then s.env.late + 1 else 0 } }) ∧
    (s.env.sched = .scheduler :: rest → s.mf = true →
      step s = exec (rowOf s.ph (s.chan s.cur).pt).instr
        { s with env := { s.env with sched := rest, late := 0 } }) ∧
    (s.env.sched = .host :: rest → s.rstp = false → ∀ w ws, s.env.hostPort = w :: ws →
      step s = exec (decode s.cfg (s.chan s.cur).pt w.toPort)
        { s with env := { s.env with sched := rest, hostPort := ws } })

/-- On a legal instance a Host turn while a reset is pending, a Host turn with nothing offered and a scheduler
turn with MF = 0 use up the turn and change nothing else: a word offered in the reset window is held.
Model's choice of what such a turn is (logs 6 and 7). (R125, R150, R153, R215) -/
def Obligations.TurnsWithoutAStepPass : Prop :=
  ∀ (s : State) (rest : List Turn), s.cfg.valid = true →
    (s.env.sched = .host :: rest → (s.rstp = true ∨ s.env.hostPort = []) →
      step s = .next { s with env := { s.env with sched := rest } }) ∧
    (s.env.sched = .scheduler :: rest → s.mf = false →
      step s = .next { s with env := { s.env with sched := rest } })

/-- On a legal instance, if MF = 1 and MAX_LATENCY_TICKS ticks have gone by, a timer turn is kept and the
handler's row runs first. R178 (a) calls the bound the environment's promise; that the step puts the handler
first is the model's choice (log 5). (R178) -/
def Obligations.LatencyBoundPutsTheHandlerFirst : Prop :=
  ∀ (s : State) (rest : List Turn), s.cfg.valid = true → s.env.sched = .timer :: rest →
    s.mf = true → s.cfg.maxLatencyTicks ≤ s.env.late →
    step s = exec (rowOf s.ph (s.chan s.cur).pt).instr { s with env := { s.env with late := 0 } }

/-- On a legal instance with no turn announced, a step is the handler's row if MF = 1 and a tick otherwise.
Model's choice (log 4), the schedule of R82's run. (R82) -/
def Obligations.FreeRunningIsTheZeroLatencySchedule : Prop :=
  ∀ s : State, s.cfg.valid = true → s.env.sched = [] →
    (s.mf = true → step s = exec (rowOf s.ph (s.chan s.cur).pt).instr
      { s with env := { s.env with late := 0 } }) ∧
    (s.mf = false → step s = exec .tick { s with env := { s.env with late := 0 } })

/-- If a constraint of R6 or R7 fails (ISR_TRIM_TICKS <= 63 is its type), every instruction and every step is
refused as no instance of the hardware. That INIT_CHANNEL must be below N and that the three address ranges
must end within the 256 addresses are the model's reading (log 13). (R6, R7, R8) -/
def Obligations.IllegalParametersAreRefused : Prop :=
  ∀ s : State,
    ¬ (1 ≤ s.cfg.n ∧ s.cfg.n ≤ 16 ∧ 1 ≤ s.cfg.tickUs ∧ s.cfg.tickUs ≤ 205 ∧
        s.cfg.rangeMinUs.toNat < s.cfg.rangeMaxUs.toNat ∧ s.cfg.initChannel < s.cfg.n ∧
        1 ≤ s.cfg.resetDelayTicks ∧ s.cfg.mapValid = true) →
    step s = .refused .notAnInstance ∧ ∀ i, exec i s = .refused .notAnInstance

/-- In a sound state with no reset pending, for every channel k < N and every ignored datum, RD.ENABLE returns
0x01 if EN[k] = 1 else 0x00 with status Ok, and changes nothing. (R154) -/
def Obligations.RdEnableReturnsTheEnableBit : Prop :=
  ∀ (s : State) (k : BitVec 4) (data : Byte), s.Inv → s.rstp = false → k.toNat < s.cfg.n →
    ∃ t, exec (.rdEnable k data) s = .next t ∧ onlyAnswered s t ∧
      t.answer = some { status := .ok, info := none, rdata := some (if (s.chan k.toNat).en = true then 0x01#8 else 0x00#8), result := none }

/-- In a sound state with no reset pending, for every channel k < N, RD.POSITION returns min(d, 0xFF) with
status Ok, where d is 0 if us <= MIN_US[k] and otherwise ((us - MIN) * 360 + span) div (2 * span), us =
(PT[k] + 64) * TICK_US; nothing changes. (R92, R94, R156) -/
def Obligations.RdPositionReturnsSaturatedDegrees : Prop :=
  ∀ (s : State) (k : BitVec 4) (data : Byte), s.Inv → s.rstp = false → k.toNat < s.cfg.n →
      let us := ((s.chan k.toNat).pt.toNat + 64) * s.cfg.tickUs
      let lo := (s.chan k.toNat).minUs.toNat
      let span := (s.chan k.toNat).maxUs.toNat - (s.chan k.toNat).minUs.toNat
      let d := if us ≤ lo then 0 else ((us - lo) * 360 + span) / (2 * span)
      ∃ t b, exec (.rdPosition k data) s = .next t ∧ onlyAnswered s t ∧
        t.answer = some { status := .ok, info := none, rdata := some b, result := none } ∧ b.toNat = min d 255

/-- In a sound state with no reset pending, for every channel k < N, RD.TICKS returns the field PT[k] itself
with status Ok and changes nothing. (R158) -/
def Obligations.RdTicksReturnsThePulse : Prop :=
  ∀ (s : State) (k : BitVec 4) (data : Byte), s.Inv → s.rstp = false → k.toNat < s.cfg.n →
    ∃ t, exec (.rdTicks k data) s = .next t ∧ onlyAnswered s t ∧
      t.answer = some { status := .ok, info := none, rdata := some (s.chan k.toNat).pt, result := none }

/-- On a legal instance with no reset pending, for every undefined address, RD.UNDEF returns 0xFF all the same,
reports UnrecognizedAddress with the address, and changes nothing. (R160) -/
def Obligations.RdUndefReturnsFFAndReports : Prop :=
  ∀ (s : State) (addr data : Byte), s.cfg.valid = true → s.rstp = false →
    s.cfg.outsideMap addr = true →
    ∃ t, exec (.rdUndef addr data) s = .next t ∧ onlyAnswered s t ∧
      t.answer = some { status := .unrecognizedAddress, info := some addr.toNat, rdata := some 0xFF#8, result := none }

/-- In a sound state with no reset pending, RegRead of every one of the 256 addresses, on every legal address
map, answers with 0xFF for the reset address and for undefined addresses, 0x01 or 0x00 for ENABLE[k], PT[k]
for TICKS[k] and the saturated angle for POSITION[k]; its status is UnrecognizedAddress exactly when the
address is undefined and Ok otherwise; nothing changes. (R74, R75, R150, R162) -/
def Obligations.RegisterReadFollowsTheMap : Prop :=
  ∀ (s : State) (addr : Byte), s.Inv → s.rstp = false →
    ∃ t a, regRead addr s = .next t ∧ onlyAnswered s t ∧ t.answer = some a ∧
      (a.status = if s.cfg.outsideMap addr then .unrecognizedAddress else .ok) ∧
      (addr = s.cfg.addrReset ∨ s.cfg.outsideMap addr = true → a.rdata = some 0xFF#8) ∧
      ∀ k < s.cfg.n,
        (addr.toNat = s.cfg.baseEnable.toNat + k →
          a.rdata = some (if (s.chan k).en = true then 0x01#8 else 0x00#8)) ∧
        (addr.toNat = s.cfg.baseTicks.toNat + k → a.rdata = some (s.chan k).pt) ∧
        (addr.toNat = s.cfg.basePosition.toNat + k →
          a.rdata = some (positionByte s.cfg.tickUs (s.chan k)))

/-- On a legal instance with no reset pending, for every ignored datum, RD.RESET returns 0xFF with status Ok;
WR.RESET.Z answers Ok; both change nothing. (R151, R152) -/
def Obligations.ResetAddressReadAndZeroWriteDoNothing : Prop :=
  ∀ (s : State) (data : Byte), s.cfg.valid = true → s.rstp = false →
    (∃ t, exec (.rdReset data) s = .next t ∧ onlyAnswered s t ∧
      t.answer = some { status := .ok, info := none, rdata := some 0xFF#8, result := none }) ∧
    (∃ t, exec .wrResetZ s = .next t ∧ onlyAnswered s t ∧
      t.answer = some { status := .ok, info := none, rdata := none, result := none })

/-- On a legal instance with no reset pending, for every nonzero byte, WR.RESET.NZ sets RSTP to 1 and RSTC to
RESET_DELAY_TICKS, answers Ok, and changes nothing else; every register reads as before. (R33, R153) -/
def Obligations.WrResetNzStartsTheCommandedReset : Prop :=
  ∀ (s : State) (data : Byte), s.cfg.valid = true → s.rstp = false → data ≠ 0#8 →
    ∃ t, exec (.wrResetNz data) s = .next t ∧ t.rstp = true ∧ t.rstc = s.cfg.resetDelayTicks ∧
      t.answer = some { status := .ok, info := none, rdata := none, result := none } ∧
      { t with rstp := s.rstp, rstc := s.rstc, answer := s.answer } = s ∧ sameRegisters s t

/-- In a sound state with no reset pending, for every channel k < N and every byte v, WR.ENABLE writes EN[k]
with 1 if v is not 0 and with 0 if it is, answers Ok, and changes nothing else: no pin, no other record, no
address but ENABLE[k]. (R155) -/
def Obligations.WrEnableWritesTheEnableBit : Prop :=
  ∀ (s : State) (k : BitVec 4) (v : Byte), s.Inv → s.rstp = false → k.toNat < s.cfg.n →
    ∃ t, exec (.wrEnable k v) s = .next t ∧ wroteEnable k.toNat (decide (v ≠ 0#8)) s t ∧
      t.answer = some { status := .ok, info := none, rdata := none, result := none }

/-- In a sound state with no reset pending, for every channel k < N and every byte v taken as degrees: v > 180
reports InvalidValue with v; otherwise us = MIN + (v * span) div 180 and q = us div TICK_US, and a q outside
64..319 reports InvalidValue with us; in both cases nothing else changes. Otherwise PT[k] becomes q - 64,
the answer is Ok, and nothing else changes. (R91, R93, R98, R157) -/
def Obligations.WrPositionSetsTheAngle : Prop :=
  ∀ (s : State) (k : BitVec 4) (v : Byte), s.Inv → s.rstp = false → k.toNat < s.cfg.n →
      let us := (s.chan k.toNat).minUs.toNat +
        v.toNat * ((s.chan k.toNat).maxUs.toNat - (s.chan k.toNat).minUs.toNat) / 180
      let q := us / s.cfg.tickUs
      (180 < v.toNat → ∃ t, exec (.wrPosition k v) s = .next t ∧ onlyAnswered s t ∧
        t.answer = some { status := .invalidValue, info := some v.toNat, rdata := none, result := none }) ∧
      (v.toNat ≤ 180 → (q < 64 ∨ 319 < q) → ∃ t, exec (.wrPosition k v) s = .next t ∧ onlyAnswered s t ∧
        t.answer = some { status := .invalidValue, info := some us, rdata := none, result := none }) ∧
      (v.toNat ≤ 180 → 64 ≤ q → q ≤ 319 → ∃ t, exec (.wrPosition k v) s = .next t ∧
        wrotePulse k.toNat (q - 64) s t ∧
        t.answer = some { status := .ok, info := none, rdata := none, result := none })

/-- In a sound state with no reset pending, for every channel k < N and every byte v, WR.TICKS writes PT[k] with
v, answers Ok, and changes nothing else. (R159) -/
def Obligations.WrTicksStoresTheByte : Prop :=
  ∀ (s : State) (k : BitVec 4) (v : Byte), s.Inv → s.rstp = false → k.toNat < s.cfg.n →
    ∃ t, exec (.wrTicks k v) s = .next t ∧ wrotePulse k.toNat v.toNat s t ∧
      t.answer = some { status := .ok, info := none, rdata := none, result := none }

/-- On a legal instance with no reset pending, for every undefined address and every datum, WR.UNDEF reports
UnrecognizedAddress with the address, returns nothing on the bus, and changes nothing. (R161) -/
def Obligations.WrUndefIsSilent : Prop :=
  ∀ (s : State) (addr data : Byte), s.cfg.valid = true → s.rstp = false →
    s.cfg.outsideMap addr = true →
    ∃ t, exec (.wrUndef addr data) s = .next t ∧ onlyAnswered s t ∧
      t.answer = some { status := .unrecognizedAddress, info := some addr.toNat, rdata := none, result := none }

/-- MemRead and MemWrite of one byte are RegRead and RegWrite; of any other number of bytes they have no meaning
and are refused. That a v above 0xFF is written as its low 8 bits is the model's choice (log 18): the spec
gives such a v no meaning. (R50, R51) -/
def Obligations.OtherAccessWidthsAreRefused : Prop :=
  ∀ (s : State) (addr : Byte) (bytes v : Nat),
    memRead addr 1 s = regRead addr s ∧
    memWrite addr 1 v s = regWrite addr (BitVec.ofNat 8 v) s ∧
    (bytes ≠ 1 → memRead addr bytes s = .refused (.accessWidth bytes) ∧
      memWrite addr bytes v s = .refused (.accessWidth bytes))

/-- In a sound state with no reset pending, for every idx < N and every ignored argument, ENABLE writes EN[idx]
with 1 and DISABLE with 0; both answer Ok and change nothing else: no pin, no other record. (R95, R96) -/
def Obligations.EnableAndDisableWriteTheBit : Prop :=
  ∀ (s : State) (idx : Byte) (arg : Half), s.Inv → s.rstp = false → idx.toNat < s.cfg.n →
    (∃ t, exec (.enable idx arg) s = .next t ∧ wroteEnable idx.toNat true s t ∧
      t.answer = some { status := .ok, info := none, rdata := none, result := none }) ∧
    (∃ t, exec (.disable idx arg) s = .next t ∧ wroteEnable idx.toNat false s t ∧
      t.answer = some { status := .ok, info := none, rdata := none, result := none })

/-- In a sound state with no reset pending, IS_ENABLED returns EN[idx] zero-extended to 16 bits with status Ok
for idx < N, and 0 with InvalidIndex for idx >= N; nothing changes. (R97) -/
def Obligations.IsEnabledReturnsTheBit : Prop :=
  ∀ (s : State) (idx : Byte) (arg : Half), s.Inv → s.rstp = false →
    (idx.toNat < s.cfg.n → ∃ t, exec (.isEnabled idx arg) s = .next t ∧ onlyAnswered s t ∧
      t.answer = some { status := .ok, info := none, rdata := none, result := some (if (s.chan idx.toNat).en = true then 1#16 else 0#16) }) ∧
    (s.cfg.n ≤ idx.toNat → ∃ t, exec (.isEnabled idx arg) s = .next t ∧ onlyAnswered s t ∧
      t.answer = some { status := .invalidIndex, info := some idx.toNat, rdata := none, result := some 0#16 })

/-- In a sound state with no reset pending, for every idx < N and every 16-bit argument d taken as degrees: d >
180 reports InvalidValue with d; otherwise us = MIN + (d * span) div 180 and q = us div TICK_US, and a q
outside 64..319 reports InvalidValue with us; in both cases nothing else changes. Otherwise PT[idx] becomes
q - 64, the answer is Ok, and nothing else changes. (R91, R93, R98) -/
def Obligations.SetPosSetsTheAngle : Prop :=
  ∀ (s : State) (idx : Byte) (arg : Half), s.Inv → s.rstp = false → idx.toNat < s.cfg.n →
      let us := (s.chan idx.toNat).minUs.toNat +
        arg.toNat * ((s.chan idx.toNat).maxUs.toNat - (s.chan idx.toNat).minUs.toNat) / 180
      let q := us / s.cfg.tickUs
      (180 < arg.toNat → ∃ t, exec (.setPos idx arg) s = .next t ∧ onlyAnswered s t ∧
        t.answer = some { status := .invalidValue, info := some arg.toNat, rdata := none, result := none }) ∧
      (arg.toNat ≤ 180 → (q < 64 ∨ 319 < q) → ∃ t, exec (.setPos idx arg) s = .next t ∧ onlyAnswered s t ∧
        t.answer = some { status := .invalidValue, info := some us, rdata := none, result := none }) ∧
      (arg.toNat ≤ 180 → 64 ≤ q → q ≤ 319 → ∃ t, exec (.setPos idx arg) s = .next t ∧
        wrotePulse idx.toNat (q - 64) s t ∧
        t.answer = some { status := .ok, info := none, rdata := none, result := none })

/-- In a sound state with no reset pending, for every idx < N and every width us, with q = us div TICK_US: q <
64 or q - 64 > 255 reports InvalidValue with us and changes nothing else; otherwise PT[idx] becomes q - 64,
the answer is Ok, and nothing else changes. The value is rejected, never clamped. (R91, R99) -/
def Obligations.SetUsSetsTheWidth : Prop :=
  ∀ (s : State) (idx : Byte) (arg : Half), s.Inv → s.rstp = false → idx.toNat < s.cfg.n →
      let q := arg.toNat / s.cfg.tickUs
      ((q < 64 ∨ 319 < q) → ∃ t, exec (.setUs idx arg) s = .next t ∧ onlyAnswered s t ∧
        t.answer = some { status := .invalidValue, info := some arg.toNat, rdata := none, result := none }) ∧
      (64 ≤ q → q ≤ 319 → ∃ t, exec (.setUs idx arg) s = .next t ∧
        wrotePulse idx.toNat (q - 64) s t ∧
        t.answer = some { status := .ok, info := none, rdata := none, result := none })

/-- In a sound state with no reset pending, for every idx < N, GET_US returns (PT[idx] + 64) * TICK_US, which
fits 16 bits on every legal instance, with status Ok; nothing changes. (R92, R100) -/
def Obligations.GetUsReturnsTheWidth : Prop :=
  ∀ (s : State) (idx : Byte) (arg : Half), s.Inv → s.rstp = false → idx.toNat < s.cfg.n →
    ∃ t v, exec (.getUs idx arg) s = .next t ∧ onlyAnswered s t ∧
      t.answer = some { status := .ok, info := none, rdata := none, result := some v } ∧
      v.toNat = ((s.chan idx.toNat).pt.toNat + 64) * s.cfg.tickUs

/-- In a sound state with no reset pending, for every idx < N, GET_POS returns min(d, 65535) with status Ok,
where d is 0 if us <= MIN_US[idx] and otherwise ((us - MIN) * 360 + span) div (2 * span), us = (PT[idx] +
64) * TICK_US; nothing changes. (R92, R94, R101) -/
def Obligations.GetPosReturnsTheDegrees : Prop :=
  ∀ (s : State) (idx : Byte) (arg : Half), s.Inv → s.rstp = false → idx.toNat < s.cfg.n →
      let us := ((s.chan idx.toNat).pt.toNat + 64) * s.cfg.tickUs
      let lo := (s.chan idx.toNat).minUs.toNat
      let span := (s.chan idx.toNat).maxUs.toNat - (s.chan idx.toNat).minUs.toNat
      let d := if us ≤ lo then 0 else ((us - lo) * 360 + span) / (2 * span)
      ∃ t v, exec (.getPos idx arg) s = .next t ∧ onlyAnswered s t ∧
        t.answer = some { status := .ok, info := none, rdata := none, result := some v } ∧ v.toNat = min d 65535

/-- On a legal instance with no reset pending, an OP word with opcode 7, or with opcode 8 to 15, whatever its
other bits (an index out of range too: the opcode is tested first), returns 0, reports UnrecognizedAddress
with the opcode, and changes nothing. (R78, R173, R174) -/
def Obligations.UnassignedOpcodesReport : Prop :=
  ∀ (s : State) (idx : Byte) (arg : Half) (low : BitVec 3), s.cfg.valid = true → s.rstp = false →
    (∃ t, exec (.opUndef7 idx arg) s = .next t ∧ onlyAnswered s t ∧
      t.answer = some { status := .unrecognizedAddress, info := some 7, rdata := none, result := some 0#16 }) ∧
    (∃ t, exec (.opUndef8F low idx arg) s = .next t ∧ onlyAnswered s t ∧
      t.answer = some { status := .unrecognizedAddress, info := some (8 + low.toNat), rdata := none, result := some 0#16 })

/-- On a legal instance with no reset pending and idx >= N, each of the seven operations, whatever its argument
(an illegal angle too), reports InvalidIndex with the index and changes nothing; the three reads return 0.
No register transaction, of any bits, executed with no reset pending, answers InvalidIndex. (R171) -/
def Obligations.InvalidIndexChangesNothing : Prop :=
  (∀ (s : State) (idx : Byte) (arg : Half), s.cfg.valid = true → s.rstp = false → s.cfg.n ≤ idx.toNat →
    (∀ i ∈ [Instr.enable idx arg, .disable idx arg, .setPos idx arg, .setUs idx arg],
      ∃ t, exec i s = .next t ∧ onlyAnswered s t ∧
        t.answer = some { status := .invalidIndex, info := some idx.toNat, rdata := none, result := none }) ∧
    (∀ i ∈ [Instr.isEnabled idx arg, .getPos idx arg, .getUs idx arg],
      ∃ t, exec i s = .next t ∧ onlyAnswered s t ∧
        t.answer = some { status := .invalidIndex, info := some idx.toNat, rdata := none, result := some 0#16 })) ∧
  (∀ (s t : State) (w : BitVec 17) (a : Answer), s.rstp = false →
    exec (decodeReg s.cfg w) s = .next t → t.answer = some a → a.status ≠ .invalidIndex)

/-- In a sound state with MF = 1 and PH = SetPinHigh, the row answers a next state with CUR = (CUR + 1) mod N,
that channel's pin 1 if it is enabled and every other pin as before, CMP = 64 - ISR_TRIM_TICKS, CNT = 0, MF
= 0, PH = WaitPreRoll, and nothing else changed. (R125, R126) -/
def Obligations.SetPinHighRowStartsTheSlot : Prop :=
  ∀ s : State, s.Inv → s.mf = true → s.ph = .setPinHigh →
    ∃ t, exec .isrSetPinHigh s = .next t ∧ onlyHandled s t ∧ t.cur = (s.cur + 1) % s.cfg.n ∧
      (∀ k, t.pin k = if k = (s.cur + 1) % s.cfg.n ∧ (s.chan ((s.cur + 1) % s.cfg.n)).en = true then true else s.pin k) ∧
      t.cmp.toNat = 64 - s.cfg.isrTrimTicks.val ∧ t.cnt = 0#8 ∧ t.mf = false ∧ t.ph = .waitPreRoll

/-- In a sound state with MF = 1 and PH = WaitPreRoll, the row answers a next state with CMP = PT[CUR], CNT =
255 if PT[CUR] = 0 and 0 otherwise, MF = 0, PH = SetPinLow, CUR and every pin as before, and nothing else
changed. (R114, R125, R127) -/
def Obligations.WaitPreRollRowProgramsThePulse : Prop :=
  ∀ s : State, s.Inv → s.mf = true → s.ph = .waitPreRoll →
    ∃ t, exec .isrWaitPreRoll s = .next t ∧ onlyHandled s t ∧ t.cur = s.cur ∧ t.pins = s.pins ∧
      t.cmp = (s.chan s.cur).pt ∧
      t.cnt = (if (s.chan s.cur).pt = 0#8 then 255#8 else 0#8) ∧ t.mf = false ∧ t.ph = .setPinLow

/-- In a sound state with MF = 1, PH = SetPinLow and 64 + PT[CUR] <= 255, the short row answers a next state
with the current channel's pin 0 if it is enabled and every other pin as before, CMP = 255 - (64 + PT[CUR]),
CNT = 0, MF = 0, PH = WaitFrameEnd, CUR as before, and nothing else changed. (R125, R128) -/
def Obligations.SetPinLowShortRowEndsThePulse : Prop :=
  ∀ s : State, s.Inv → s.mf = true → s.ph = .setPinLow → 64 + (s.chan s.cur).pt.toNat ≤ 255 →
    ∃ t, exec .isrSetPinLowShort s = .next t ∧ onlyHandled s t ∧ t.cur = s.cur ∧
      (∀ k, t.pin k = if k = s.cur ∧ (s.chan (s.cur)).en = true then false else s.pin k) ∧
      t.cmp.toNat = 255 - (64 + (s.chan s.cur).pt.toNat) ∧ t.cnt = 0#8 ∧ t.mf = false ∧
      t.ph = .waitFrameEnd

/-- In a sound state with MF = 1, PH = SetPinLow and 64 + PT[CUR] > 255, the long row answers a next state with
the current channel's pin 0 if it is enabled and every other pin as before, CMP the low 8 bits of 512 - (64
+ PT[CUR]), CNT = 0, MF = 0, PH = SetPinHigh, CUR as before, and nothing else changed. (R115, R125, R129) -/
def Obligations.SetPinLowLongRowEndsThePulse : Prop :=
  ∀ s : State, s.Inv → s.mf = true → s.ph = .setPinLow → 255 < 64 + (s.chan s.cur).pt.toNat →
    ∃ t, exec .isrSetPinLowLong s = .next t ∧ onlyHandled s t ∧ t.cur = s.cur ∧
      (∀ k, t.pin k = if k = s.cur ∧ (s.chan (s.cur)).en = true then false else s.pin k) ∧
      t.cmp.toNat = (512 - (64 + (s.chan s.cur).pt.toNat)) % 256 ∧ t.cnt = 0#8 ∧ t.mf = false ∧
      t.ph = .setPinHigh

/-- In a sound state with MF = 1 and PH = WaitFrameEnd, the row answers a next state with CMP = 255, CNT = 0, MF
= 0, PH = SetPinHigh, CUR and every pin as before, and nothing else changed. (R125, R130) -/
def Obligations.WaitFrameEndRowWaitsTheSecondHalf : Prop :=
  ∀ s : State, s.Inv → s.mf = true → s.ph = .waitFrameEnd →
    ∃ t, exec .isrWaitFrameEnd s = .next t ∧ onlyHandled s t ∧ t.cur = s.cur ∧ t.pins = s.pins ∧
      t.cmp = 255#8 ∧ t.cnt = 0#8 ∧ t.mf = false ∧ t.ph = .setPinHigh

/-- In a sound state with MF = 1, the handler's step leaves PH and CUR as the table of R131 says: SetPinHigh to
WaitPreRoll with CUR + 1 mod N; WaitPreRoll to SetPinLow; SetPinLow to WaitFrameEnd if PT[CUR] <= 191 and to
SetPinHigh if PT[CUR] >= 192; WaitFrameEnd to SetPinHigh; CUR kept in all but the first. No other
instruction but a reset changes PH or CUR. (R26, R131, R132) -/
def Obligations.NextStateFunction : Prop :=
  (∀ s : State, s.Inv → s.mf = true →
    ∃ t, isr s = .next t ∧
      t.cur = (if s.ph = .setPinHigh then (s.cur + 1) % s.cfg.n else s.cur) ∧
      t.ph = match s.ph with
        | .setPinHigh => .waitPreRoll
        | .waitPreRoll => .setPinLow
        | .setPinLow => if (s.chan s.cur).pt.toNat ≤ 191 then .waitFrameEnd else .setPinHigh
        | .waitFrameEnd => .setPinHigh) ∧
  (∀ (i : Instr) (s t : State), exec i s = .next t → i.row? = none → ¬ isReset i s →
    t.ph = s.ph ∧ t.cur = s.cur)

/-- On a legal instance every Host instruction executed with RSTP = 1, and every row executed with MF = 0 or
when PH (with PT[CUR]) selects another row, answers the same state. That such an instruction answers at all,
with nothing changed, is the model's choice (log 6): the spec says that the agent has no step. (R125, R150,
R153) -/
def Obligations.StepsThatAreNotEnabledChangeNothing : Prop :=
  ∀ (s : State) (i : Instr), s.cfg.valid = true →
    (i.isHost = true → s.rstp = true → exec i s = .next s) ∧
    (∀ r, i.row? = some r → (s.mf = false ∨ rowOf s.ph (s.chan s.cur).pt ≠ r) → exec i s = .next s)

/-- Whenever a register transaction or a Channel Table operation answers a next state: PH, CUR, CNT, CMP, MF,
every pin, every MIN_US and MAX_US, the parameters, the surroundings and the number of channels are as
before; EN of every channel is as before, except of the channel operand of WR.ENABLE, ENABLE and DISABLE; PT
of every channel is as before, except of the channel operand of WR.POSITION, WR.TICKS, SET_POS and SET_US;
every other Host instruction leaves the whole table as it was; and RSTP and RSTC are as before for all but
the nonzero write to the reset address. (R23, R24, R33, R35, R56, R90, R119, R150, R182) -/
def Obligations.HostNeverTouchesTheScheduler : Prop :=
  ∀ (i : Instr) (s t : State), i.isHost = true → exec i s = .next t →
    t.ph = s.ph ∧ t.cur = s.cur ∧ t.cnt = s.cnt ∧ t.cmp = s.cmp ∧ t.mf = s.mf ∧ t.pins = s.pins ∧
    t.cfg = s.cfg ∧ t.env = s.env ∧ t.table.length = s.table.length ∧
    (∀ j, (t.chan j).minUs = (s.chan j).minUs ∧ (t.chan j).maxUs = (s.chan j).maxUs) ∧
    (∀ j, enableTarget? i ≠ some j → (t.chan j).en = (s.chan j).en) ∧
    (∀ j, pulseTarget? i ≠ some j → (t.chan j).pt = (s.chan j).pt) ∧
    (enableTarget? i = none → pulseTarget? i = none → t.table = s.table) ∧
    ((∀ d, i ≠ .wrResetNz d) → t.rstp = s.rstp ∧ t.rstc = s.rstc)

/-- Whenever a row answers a next state, the Channel Table, RSTP, RSTC, the answer of the latest Host step, the
parameters and the surroundings are as before, and every register reads as before. (R35, R133, R140, R182) -/
def Obligations.HandlerNeverTouchesTheTable : Prop :=
  ∀ (i : Instr) (r : Row) (s t : State), i.row? = some r → exec i s = .next t →
    t.table = s.table ∧ t.rstp = s.rstp ∧ t.rstc = s.rstc ∧ t.answer = s.answer ∧ t.cfg = s.cfg ∧
    t.env = s.env ∧ sameRegisters s t

/-- In a sound state, if any instruction answers a next state in which pin k differs, then either the step is a
reset and the pin went low, or the instruction is a row, k is the channel then current and enabled, and the
pin went high in the SetPinHigh row or low in a SetPinLow row. (R32, R134) -/
def Obligations.PinsChangeOnlyInTheirRows : Prop :=
  ∀ (i : Instr) (s t : State) (k : Nat), s.Inv → exec i s = .next t → t.pin k ≠ s.pin k →
    (isReset i s ∧ t.pin k = false) ∨
    (k = t.cur ∧ (s.chan k).en = true ∧
      ((i = .isrSetPinHigh ∧ t.pin k = true) ∨
        ((i = .isrSetPinLowShort ∨ i = .isrSetPinLowLong) ∧ t.pin k = false)))

/-- In a sound state with channel k disabled, whatever agent has the turn, a step that answers a next state does
not take pin k from 0 to 1. (R23, R96, R134) -/
def Obligations.ADisabledChannelIsNeverDrivenHigh : Prop :=
  ∀ (s t : State) (k : Nat), s.Inv → (s.chan k).en = false → s.pin k = false →
    step s = .next t → t.pin k = false

/-- Take a sound state with MF = 1 and the same state with another table of the same length. If the two tables
agree on EN of the channel about to be current when PH = SetPinHigh, on PT[CUR] when PH = WaitPreRoll, on
EN[CUR] and PT[CUR] when PH = SetPinLow (and on nothing when PH = WaitFrameEnd), then the handler's step
from both answers next states that differ in nothing but the tables they had. (R133) -/
def Obligations.RowsReadOnlyWhatR133Names : Prop :=
  ∀ (s : State) (table : List Channel), s.Inv → s.mf = true → table.length = s.table.length →
    let s' := { s with table := table }
    (match s.ph with
      | .setPinHigh => (s'.chan ((s.cur + 1) % s.cfg.n)).en = (s.chan ((s.cur + 1) % s.cfg.n)).en
      | .waitPreRoll => (s'.chan s.cur).pt = (s.chan s.cur).pt
      | .setPinLow =>
        (s'.chan s.cur).en = (s.chan s.cur).en ∧ (s'.chan s.cur).pt = (s.chan s.cur).pt
      | .waitFrameEnd => True) →
    ∃ t t', isr s = .next t ∧ isr s' = .next t' ∧ t' = { t with table := table }

/-- In a sound state: with no reset pending, TICK adds 1 to CNT modulo 256, sets MF if the new CNT equals CMP,
keeps it if it was set (a second match leaves no trace), and changes nothing else. With a reset pending and
RSTC > 1 it also takes 1 from RSTC. With RSTC = 1 it performs the reset and nothing else happens, whatever
the count would have matched. Of that reset state the clauses on the model's own fields are the model's
choice and no rule's: the turns and words announced stay (log 3), the lateness count goes to 0 (log 5), the
answer record is cleared (log 8). (R111, R112, R117, R120) -/
def Obligations.TickCountsMatchesAndEndsTheDelay : Prop :=
  ∀ s : State, s.Inv →
    (s.rstp = false → ∃ t, exec .tick s = .next t ∧ onlyCounted s t ∧
      t.cnt.toNat = (s.cnt.toNat + 1) % 256 ∧ (t.mf = true ↔ s.mf = true ∨ t.cnt = s.cmp)) ∧
    (s.rstp = true → 1 < s.rstc → ∃ t, exec .tick s = .next t ∧
      onlyCounted { s with rstc := s.rstc - 1 } t ∧
      t.cnt.toNat = (s.cnt.toNat + 1) % 256 ∧ (t.mf = true ↔ s.mf = true ∨ t.cnt = s.cmp)) ∧
    (s.rstp = true → s.rstc = 1 →
      exec .tick s = .next (State.resetIn s.cfg { s.env with late := 0 }))

/-- In a state of a legal instance with MF = 0 (as every handler step leaves it), counting with no other write
of CNT or CMP (no handler step, and no reset within the interval): MF stays 0 for every number of ticks
below wait(c0, v) = ((v - c0 - 1) mod 256) + 1 and is 1 after exactly that many. wait is in 1..256, wait(0,
v) = v for 1 <= v <= 255, wait(0, 0) = 256, and wait(255, 0) = 1. (R113) -/
def Obligations.MatchComesAfterTheWait : Prop :=
  (∀ s : State, s.cfg.valid = true → s.mf = false →
    let w := waitTicks s.cnt.toNat s.cmp.toNat
    (s.rstp = false ∨ w < s.rstc) →
    (w : Int) = ((s.cmp.toNat : Int) - s.cnt.toNat - 1) % 256 + 1 ∧ 1 ≤ w ∧ w ≤ 256 ∧
    (∀ m < w, ∃ t, ticks m s = .next t ∧ t.mf = false) ∧
    ∃ t, ticks w s = .next t ∧ t.mf = true ∧ t.cnt = s.cmp) ∧
  (∀ v, 1 ≤ v → v ≤ 255 → waitTicks 0 v = v) ∧ waitTicks 0 0 = 256 ∧ waitTicks 255 0 = 1

/-- From every sound state, whatever CNT, CMP and MF hold, there is a number n of ticks with MF = 0 before the
last of them and MF = 1 after it, at most 256 with no reset pending and at most 512 with one (which may take
place meanwhile); there the handler's step answers a next state with MF = 0, and `next` of R82 is just that.
That `next` takes no tick where MF = 1 already is the model's reading (log 19). (R82, R111, R116, R120) -/
def Obligations.TheHandlerRunsAgainWithin256Ticks : Prop :=
  ∀ s : State, s.Inv →
    ∃ n u t, n ≤ 512 ∧ (s.rstp = false → n ≤ 256) ∧
      (∀ m < n, ∃ v, ticks m s = .next v ∧ v.mf = false) ∧
      ticks n s = .next u ∧ u.mf = true ∧ isr u = .next t ∧ t.mf = false ∧ nextEvent s = .next t

/-- From every sound state with a reset pending, under the schedule of `run`: for every number of ticks below
RSTC the reset is still pending with that many ticks less, and the Channel Table is unchanged; after exactly
RSTC ticks the state is the reset state of the instance. From a sound state with no reset pending, right
after the nonzero write to the reset address RSTC is RESET_DELAY_TICKS, and that many ticks lead to the
reset state. Of the reset state the clauses on the model's own fields are the model's choice: the turns and
words announced stay (log 3), the lateness count goes to 0 (log 5), the answer record is cleared (log 8).
(R120, R153, R201, R203) -/
def Obligations.TheCommandedResetComesAfterItsDelay : Prop :=
  (∀ s : State, s.Inv → s.rstp = true →
    (∀ m < s.rstc, ∃ u, run m s = .next u ∧ u.rstp = true ∧ u.rstc = s.rstc - m ∧
      u.table = s.table) ∧
    run s.rstc s = .next (State.resetIn s.cfg { s.env with late := 0 })) ∧
  (∀ (s : State) (data : Byte), s.Inv → s.rstp = false → data ≠ 0#8 →
    ∃ u, exec (.wrResetNz data) s = .next u ∧ u.rstp = true ∧ u.rstc = s.cfg.resetDelayTicks ∧
      run s.cfg.resetDelayTicks u = .next (State.resetIn s.cfg { s.env with late := 0 }))

/-- From the reset of every legal instance, under the schedule of `run`: for fewer than 256 ticks PH is
SetPinHigh, CUR is INIT_CHANNEL and MF is 0; after 256 ticks the SetPinHigh row has run: CUR is
(INIT_CHANNEL + 1) mod N, PH is WaitPreRoll, CMP is 64 - t, and every pin is low. (R202) -/
def Obligations.FirstEventAfterReset : Prop :=
  ∀ (p : Params) (env : Env), p.valid = true →
    (∀ m < 256, ∃ u, run m (State.resetIn p env) = .next u ∧ u.ph = .setPinHigh ∧
      u.cur = p.initChannel ∧ u.mf = false) ∧
    ∃ t, run 256 (State.resetIn p env) = .next t ∧ t.slotStart ∧
      t.cur = (p.initChannel + 1) % p.n ∧ ∀ k, t.pin k = false

/-- From every sound state right after a SetPinHigh row with no reset pending, under the schedule of `run` and
with no Host step: with pt = PT[CUR] and t = ISR_TRIM_TICKS, the next SetPinHigh row is run by exactly the
tick number 511 - t for pt = 0, 510 - t for 1..190, 766 - t for 191 and 512 - t for 192..255; until then CUR
stays and no other slot starts; then CUR is the next channel and the table is unchanged. (R135, R136) -/
def Obligations.SlotLengthIsAsTheTableSays : Prop :=
  ∀ s : State, s.Inv → s.rstp = false → s.slotStart →
    let len := slotTicks s.cfg.isrTrimTicks.val (s.chan s.cur).pt.toNat
    (∀ m, 0 < m → m < len → ∃ u, run m s = .next u ∧ u.cur = s.cur ∧ ¬ u.slotStart) ∧
    ∃ t, run len s = .next t ∧ t.slotStart ∧ t.cur = (s.cur + 1) % s.cfg.n ∧ t.table = s.table

/-- From every sound state right after a SetPinHigh row of an enabled channel (its pin high) with no reset
pending, under the schedule of `run`: the pin is 1 for every number of ticks below (64 - t) + PT (below (64
- t) + 1 for PT = 0) and 0 from there to the end of the slot; every other pin keeps its level throughout.
(R136, R137) -/
def Obligations.HighTimeIsPreRollPlusPulse : Prop :=
  ∀ s : State, s.Inv → s.rstp = false → s.slotStart → (s.chan s.cur).en = true →
    s.pin s.cur = true →
    let t := s.cfg.isrTrimTicks.val
    let pt := (s.chan s.cur).pt.toNat
    ∀ m < slotTicks t pt, ∃ u, run m s = .next u ∧
      u.pin s.cur = decide (m < highTicks t pt) ∧ ∀ k, k ≠ s.cur → u.pin k = s.pin k

/-- From every sound state right after a SetPinHigh row with no reset pending and every PT in 1..190, under the
schedule of `run`: after j times 510 - t ticks, for every j, a slot of channel (CUR + j) mod N starts and
the table is unchanged. So each channel's period is N * (510 - t) ticks. (R132, R136, R138) -/
def Obligations.RoundRobinOfRegularSlots : Prop :=
  ∀ (s : State) (j : Nat), s.Inv → s.rstp = false → s.slotStart →
    (∀ k < s.cfg.n, 1 ≤ (s.chan k).pt.toNat ∧ (s.chan k).pt.toNat ≤ 190) →
    ∃ u, run (j * (510 - s.cfg.isrTrimTicks.val)) s = .next u ∧ u.slotStart ∧
      u.cur = (s.cur + j) % s.cfg.n ∧ u.table = s.table

/-- In a sound state with no reset pending, for every idx < N and every accepted width us: SET_US then GET_US
returns (us div TICK_US) * TICK_US, so us minus the result is in 0..TICK_US-1. (R92, R103) -/
def Obligations.ReadBackOfAWidth : Prop :=
  ∀ (s : State) (idx : Byte) (us a : Half), s.Inv → s.rstp = false → idx.toNat < s.cfg.n →
    64 ≤ us.toNat / s.cfg.tickUs → us.toNat / s.cfg.tickUs ≤ 319 →
    ∃ t u v, exec (.setUs idx us) s = .next t ∧ exec (.getUs idx a) t = .next u ∧
      u.answer = some { status := .ok, info := none, rdata := none, result := some v } ∧
      v.toNat = us.toNat / s.cfg.tickUs * s.cfg.tickUs ∧
      v.toNat ≤ us.toNat ∧ us.toNat - v.toNat < s.cfg.tickUs

/-- In a sound state of an instance with TICK_US = 8 and the range (544, 2400), with no reset pending, for every
idx < N and every angle d in 0..180: SET_POS succeeds and GET_POS then returns d or d - 1. Of the 181 angles
121 read back as d and 60 as d - 1, the first of these 3, 6, 10, 13, 17 and 20. (R93, R94, R103) -/
def Obligations.ReadBackOfAnAngle : Prop :=
  (∀ (s : State) (idx : Byte) (d a : Half), s.Inv → s.rstp = false → idx.toNat < s.cfg.n →
    s.cfg.tickUs = 8 → s.cfg.rangeMinUs = 544#16 → s.cfg.rangeMaxUs = 2400#16 → d.toNat ≤ 180 →
    ∃ t u v, exec (.setPos idx d) s = .next t ∧ exec (.getPos idx a) t = .next u ∧
      u.answer = some { status := .ok, info := none, rdata := none, result := some v } ∧
      (v.toNat = d.toNat ∨ v.toNat + 1 = d.toNat)) ∧
  (∀ c : Channel, c.minUs = 544#16 → c.maxUs = 2400#16 →
    let back := fun d => (usToTicks 8 (degToUs c d)).map fun p => usToDeg c (ticksToUs 8 p)
    ((List.range 181).filter fun d => back d == some d).length = 121 ∧
    ((List.range 180).filter fun r => back (r + 1) == some r).length = 60 ∧
    (((List.range 180).filter fun r => back (r + 1) == some r).map (· + 1)).take 6 =
      [3, 6, 10, 13, 17, 20])

/-- For every instruction and every state: if a Host instruction answers a next state whose answer is not Ok,
then nothing but the answer differs and every register reads as before. So no error is fatal, and none
changes control. (R170, R172, R173, R175) -/
def Obligations.ErrorsChangeNothing : Prop :=
  ∀ (i : Instr) (s t : State) (a : Answer), i.isHost = true → exec i s = .next t →
    t.answer = some a → a.status ≠ .ok → onlyAnswered s t

/-- For every read of both ports: whenever it answers a next state, nothing but the answer differs, every
register reads as before, and the same read from there answers the very same state. (R55) -/
def Obligations.ReadsHaveNoSideEffect : Prop :=
  ∀ (i : Instr) (s t : State), isRead i = true → exec i s = .next t →
    onlyAnswered s t ∧ exec i t = .next t

/-- For every REG word that is a write: whenever it answers a next state, writing the same word again from there
answers that very state R56 excepts the nonzero write to the reset address, after which no second write is
accepted: that the second write then answers the same state is the model's choice (log 6). (R56) -/
def Obligations.WritesAreIdempotent : Prop :=
  ∀ (s t : State) (addr v : Byte), regWrite addr v s = .next t → regWrite addr v t = .next t

/-- In a sound state, for every channel k < N as register channel and as index: WR.ENABLE with a nonzero byte
has the outcome of ENABLE and with zero that of DISABLE, WR.POSITION of v has the outcome of SET_POS of v.
With no reset pending RD.ENABLE and IS_ENABLED return the same value, and RD.POSITION returns GET_POS's
value saturated to a byte. (R154, R155, R156, R157, R163) -/
def Obligations.TransactionsEqualOperations : Prop :=
  ∀ (s : State) (k : BitVec 4) (idx v d : Byte) (arg : Half), s.Inv → k.toNat < s.cfg.n →
    idx.toNat = k.toNat →
    (v ≠ 0#8 → exec (.wrEnable k v) s = exec (.enable idx arg) s) ∧
    exec (.wrEnable k 0#8) s = exec (.disable idx arg) s ∧
    exec (.wrPosition k v) s = exec (.setPos idx (v.setWidth 16)) s ∧
    (s.rstp = false → ∃ t t' b x, exec (.rdEnable k d) s = .next t ∧
      exec (.isEnabled idx arg) s = .next t' ∧ t.answer.bind (·.rdata) = some b ∧
      t'.answer.bind (·.result) = some x ∧ b.toNat = x.toNat) ∧
    (s.rstp = false → ∃ t t' b x, exec (.rdPosition k d) s = .next t ∧
      exec (.getPos idx arg) s = .next t' ∧ t.answer.bind (·.rdata) = some b ∧
      t'.answer.bind (·.result) = some x ∧ b.toNat = min x.toNat 255)

/-- ticks_to_us(p) = (p + 64) * TICK_US for every pulse; at TICK_US = 8 it is 512 at 0, 2552 at 255, rises in
steps of 8 and fits 12 bits; for every tick of at least 1 us and every accepted us,
ticks_to_us(us_to_ticks(us)) = (us div TICK_US) * TICK_US, which lies in us - (TICK_US - 1) .. us. (R92) -/
def Obligations.TicksToMicrosecondsInvertsWithinATick : Prop :=
  (∀ (tickUs : Nat) (p : Byte), ticksToUs tickUs p = (p.toNat + 64) * tickUs) ∧
  ticksToUs 8 0#8 = 512 ∧ ticksToUs 8 255#8 = 2552 ∧
  (∀ p q : Byte, q.toNat = p.toNat + 1 → ticksToUs 8 q = ticksToUs 8 p + 8) ∧
  (∀ p : Byte, ticksToUs 8 p < 2 ^ 12) ∧
  (∀ (tickUs us : Nat) (p : Byte), 1 ≤ tickUs → usToTicks tickUs us = some p →
    ticksToUs tickUs p = us / tickUs * tickUs ∧
    us ≤ ticksToUs tickUs p + (tickUs - 1) ∧ ticksToUs tickUs p ≤ us)
end

