-- ==== Sys2Proof/Laws/Decode.lean ====
section
/-! SUPPORT. The fields of a built word, the codes of the phases, and everything the address decoder can answer. -/

namespace Sys2Proof

/-- The bits of a REG word (R71). -/
theorem regWord_getLsbD (w : Bool) (a d : Byte) (i : Nat) :
    (regWord w a d).getLsbD i =
      if i < 8 then d.getLsbD i else if i - 8 < 8 then a.getLsbD (i - 8)
      else (BitVec.ofBool w).getLsbD (i - 8 - 8) := by
  unfold regWord
  erw [BitVec.getLsbD_append, BitVec.getLsbD_append]

/-- The bits of an OP word (R72). -/
theorem opWord_getLsbD (op : BitVec 4) (idx : Byte) (arg : Half) (i : Nat) :
    (opWord op idx arg).getLsbD i =
      if i < 16 then arg.getLsbD i else if i - 16 < 8 then idx.getLsbD (i - 16)
      else op.getLsbD (i - 16 - 8) := by
  unfold opWord
  erw [BitVec.getLsbD_append, BitVec.getLsbD_append]

@[simp] theorem regIsWrite_regWord (w : Bool) (a d : Byte) : regIsWrite (regWord w a d) = w := by
  rw [regIsWrite, regWord_getLsbD]
  cases w <;> rfl

@[simp] theorem regAddr_regWord (w : Bool) (a d : Byte) : regAddr (regWord w a d) = a := by
  apply BitVec.eq_of_getLsbD_eq
  intro i hi
  rw [regAddr, BitVec.getLsbD_extractLsb', regWord_getLsbD]
  simp [hi]

@[simp] theorem regData_regWord (w : Bool) (a d : Byte) : regData (regWord w a d) = d := by
  apply BitVec.eq_of_getLsbD_eq
  intro i hi
  rw [regData, BitVec.getLsbD_extractLsb', regWord_getLsbD]
  simp [hi]

@[simp] theorem opCode_opWord (op : BitVec 4) (idx : Byte) (arg : Half) : opCode (opWord op idx arg) = op := by
  apply BitVec.eq_of_getLsbD_eq
  intro i hi
  rw [opCode, BitVec.getLsbD_extractLsb', opWord_getLsbD]
  simp [hi, show ¬ (24 + i < 16) by omega, show ¬ (24 + i - 16 < 8) by omega,
    show 24 + i - 16 - 8 = i by omega]

@[simp] theorem opIdx_opWord (op : BitVec 4) (idx : Byte) (arg : Half) : opIdx (opWord op idx arg) = idx := by
  apply BitVec.eq_of_getLsbD_eq
  intro i hi
  rw [opIdx, BitVec.getLsbD_extractLsb', opWord_getLsbD]
  simp [hi]

@[simp] theorem opArg_opWord (op : BitVec 4) (idx : Byte) (arg : Half) : opArg (opWord op idx arg) = arg := by
  apply BitVec.eq_of_getLsbD_eq
  intro i hi
  rw [opArg, BitVec.getLsbD_extractLsb', opWord_getLsbD]
  simp [hi]

@[simp] theorem phaseOfCode_code (ph : Phase) : phaseOfCode ph.code = ph := by
  cases ph <;> decide

@[simp] theorem code_phaseOfCode (w : BitVec 2) : (phaseOfCode w).code = w := by
  revert w; decide

/-- The row that runs belongs to the phase that names it. -/
@[simp] theorem rowOf_phase (ph : Phase) (pt : Byte) : (rowOf ph pt).phase = ph := by
  cases ph <;> simp only [rowOf] <;> try rfl
  split <;> rfl

/-- A long pulse is one of 192 ticks or more. -/
theorem pulseIsLong_iff {pt : Byte} : pulseIsLong pt = true ↔ 192 ≤ pt.toNat := by
  simp only [pulseIsLong, Config.preRollTicks, Config.maxTicks, decide_eq_true_eq]
  omega

theorem inRange_iff {p : Params} {b a : Byte} :
    p.inRange b a = true ↔ b.toNat ≤ a.toNat ∧ a.toNat - b.toNat < p.n := by
  simp [Params.inRange]

/-- Everything the address decoder can answer. -/
theorem classify_cases (p : Params) (a : Byte) :
    (classify p a = .reset ∧ a = p.addrReset) ∨
    (∃ k, classify p a = .enable k ∧ k < p.n ∧ a.toNat = p.baseEnable.toNat + k) ∨
    (∃ k, classify p a = .position k ∧ k < p.n ∧ a.toNat = p.basePosition.toNat + k) ∨
    (∃ k, classify p a = .ticks k ∧ k < p.n ∧ a.toNat = p.baseTicks.toNat + k) ∨
    (classify p a = .undef ∧ p.outsideMap a = true) := by
  unfold classify
  by_cases h0 : a = p.addrReset
  · exact .inl ⟨by simp [h0], h0⟩
  by_cases h1 : p.inRange p.baseEnable a = true
  · have := inRange_iff.mp h1
    exact .inr (.inl ⟨_, by simp [h0, h1], this.2, by omega⟩)
  by_cases h2 : p.inRange p.basePosition a = true
  · have := inRange_iff.mp h2
    exact .inr (.inr (.inl ⟨_, by simp [h0, h1, h2], this.2, by omega⟩))
  by_cases h3 : p.inRange p.baseTicks a = true
  · have := inRange_iff.mp h3
    exact .inr (.inr (.inr (.inl ⟨_, by simp [h0, h1, h2, h3], this.2, by omega⟩)))
  · exact .inr (.inr (.inr (.inr ⟨by simp [h0, h1, h2, h3], by simp [Params.outsideMap, h0, h1, h2, h3]⟩)))

/-- An instance has at most 16 channels. -/
theorem Params.n_le_of_valid {p : Params} (h : p.valid = true) : 1 ≤ p.n ∧ p.n ≤ 16 := by
  simp only [Params.valid, Bool.and_eq_true, decide_eq_true_eq] at h
  omega

/-- What a legal address map says, as inequalities. -/
theorem Params.map_of_valid {p : Params} (h : p.valid = true) :
    (p.baseEnable.toNat + p.n ≤ 256 ∧ p.basePosition.toNat + p.n ≤ 256 ∧ p.baseTicks.toNat + p.n ≤ 256) ∧
    (p.baseEnable.toNat + p.n ≤ p.basePosition.toNat ∨ p.basePosition.toNat + p.n ≤ p.baseEnable.toNat) ∧
    (p.baseEnable.toNat + p.n ≤ p.baseTicks.toNat ∨ p.baseTicks.toNat + p.n ≤ p.baseEnable.toNat) ∧
    (p.basePosition.toNat + p.n ≤ p.baseTicks.toNat ∨ p.baseTicks.toNat + p.n ≤ p.basePosition.toNat) ∧
    (p.addrReset.toNat < p.baseEnable.toNat ∨ p.baseEnable.toNat + p.n ≤ p.addrReset.toNat) ∧
    (p.addrReset.toNat < p.basePosition.toNat ∨ p.basePosition.toNat + p.n ≤ p.addrReset.toNat) ∧
    (p.addrReset.toNat < p.baseTicks.toNat ∨ p.baseTicks.toNat + p.n ≤ p.addrReset.toNat) := by
  simp only [Params.valid, Params.mapValid, Params.rangeFits, Params.rangesApart, Params.rangeExcludesReset,
    Bool.and_eq_true, Bool.or_eq_true, decide_eq_true_eq] at h
  omega

end Sys2Proof
end

