-- ==== Sys2Proof/Laws/State.lean ====
section
/-! SUPPORT. One lemma per field per update of State, true by `rfl`; what the accessors read after an update;
what `RESET` leaves. -/

namespace Sys2Proof.Machine

variable (s : State)


/-! ## `State.withAnswer` -/

@[simp] theorem withAnswer_cfg (a : Answer) : (s.withAnswer a).cfg = s.cfg := rfl
@[simp] theorem withAnswer_table (a : Answer) : (s.withAnswer a).table = s.table := rfl
@[simp] theorem withAnswer_ph (a : Answer) : (s.withAnswer a).ph = s.ph := rfl
@[simp] theorem withAnswer_cur (a : Answer) : (s.withAnswer a).cur = s.cur := rfl
@[simp] theorem withAnswer_cnt (a : Answer) : (s.withAnswer a).cnt = s.cnt := rfl
@[simp] theorem withAnswer_cmp (a : Answer) : (s.withAnswer a).cmp = s.cmp := rfl
@[simp] theorem withAnswer_mf (a : Answer) : (s.withAnswer a).mf = s.mf := rfl
@[simp] theorem withAnswer_pins (a : Answer) : (s.withAnswer a).pins = s.pins := rfl
@[simp] theorem withAnswer_rstp (a : Answer) : (s.withAnswer a).rstp = s.rstp := rfl
@[simp] theorem withAnswer_rstc (a : Answer) : (s.withAnswer a).rstc = s.rstc := rfl
@[simp] theorem withAnswer_answer (a : Answer) : (s.withAnswer a).answer = some a := rfl
@[simp] theorem withAnswer_env (a : Answer) : (s.withAnswer a).env = s.env := rfl


/-! ## `State.setEn` -/

@[simp] theorem setEn_cfg (k : Nat) (v : Bool) : (s.setEn k v).cfg = s.cfg := rfl
@[simp] theorem setEn_table (k : Nat) (v : Bool) : (s.setEn k v).table = s.table.modify k fun c => { c with en := v } := rfl
@[simp] theorem setEn_ph (k : Nat) (v : Bool) : (s.setEn k v).ph = s.ph := rfl
@[simp] theorem setEn_cur (k : Nat) (v : Bool) : (s.setEn k v).cur = s.cur := rfl
@[simp] theorem setEn_cnt (k : Nat) (v : Bool) : (s.setEn k v).cnt = s.cnt := rfl
@[simp] theorem setEn_cmp (k : Nat) (v : Bool) : (s.setEn k v).cmp = s.cmp := rfl
@[simp] theorem setEn_mf (k : Nat) (v : Bool) : (s.setEn k v).mf = s.mf := rfl
@[simp] theorem setEn_pins (k : Nat) (v : Bool) : (s.setEn k v).pins = s.pins := rfl
@[simp] theorem setEn_rstp (k : Nat) (v : Bool) : (s.setEn k v).rstp = s.rstp := rfl
@[simp] theorem setEn_rstc (k : Nat) (v : Bool) : (s.setEn k v).rstc = s.rstc := rfl
@[simp] theorem setEn_answer (k : Nat) (v : Bool) : (s.setEn k v).answer = s.answer := rfl
@[simp] theorem setEn_env (k : Nat) (v : Bool) : (s.setEn k v).env = s.env := rfl


/-! ## `State.setPt` -/

@[simp] theorem setPt_cfg (k : Nat) (v : Byte) : (s.setPt k v).cfg = s.cfg := rfl
@[simp] theorem setPt_table (k : Nat) (v : Byte) : (s.setPt k v).table = s.table.modify k fun c => { c with pt := v } := rfl
@[simp] theorem setPt_ph (k : Nat) (v : Byte) : (s.setPt k v).ph = s.ph := rfl
@[simp] theorem setPt_cur (k : Nat) (v : Byte) : (s.setPt k v).cur = s.cur := rfl
@[simp] theorem setPt_cnt (k : Nat) (v : Byte) : (s.setPt k v).cnt = s.cnt := rfl
@[simp] theorem setPt_cmp (k : Nat) (v : Byte) : (s.setPt k v).cmp = s.cmp := rfl
@[simp] theorem setPt_mf (k : Nat) (v : Byte) : (s.setPt k v).mf = s.mf := rfl
@[simp] theorem setPt_pins (k : Nat) (v : Byte) : (s.setPt k v).pins = s.pins := rfl
@[simp] theorem setPt_rstp (k : Nat) (v : Byte) : (s.setPt k v).rstp = s.rstp := rfl
@[simp] theorem setPt_rstc (k : Nat) (v : Byte) : (s.setPt k v).rstc = s.rstc := rfl
@[simp] theorem setPt_answer (k : Nat) (v : Byte) : (s.setPt k v).answer = s.answer := rfl
@[simp] theorem setPt_env (k : Nat) (v : Byte) : (s.setPt k v).env = s.env := rfl


/-! ## `State.setPin` -/

@[simp] theorem setPin_cfg (k : Nat) (v : Bool) : (s.setPin k v).cfg = s.cfg := rfl
@[simp] theorem setPin_table (k : Nat) (v : Bool) : (s.setPin k v).table = s.table := rfl
@[simp] theorem setPin_ph (k : Nat) (v : Bool) : (s.setPin k v).ph = s.ph := rfl
@[simp] theorem setPin_cur (k : Nat) (v : Bool) : (s.setPin k v).cur = s.cur := rfl
@[simp] theorem setPin_cnt (k : Nat) (v : Bool) : (s.setPin k v).cnt = s.cnt := rfl
@[simp] theorem setPin_cmp (k : Nat) (v : Bool) : (s.setPin k v).cmp = s.cmp := rfl
@[simp] theorem setPin_mf (k : Nat) (v : Bool) : (s.setPin k v).mf = s.mf := rfl
@[simp] theorem setPin_pins (k : Nat) (v : Bool) : (s.setPin k v).pins = s.pins.set k v := rfl
@[simp] theorem setPin_rstp (k : Nat) (v : Bool) : (s.setPin k v).rstp = s.rstp := rfl
@[simp] theorem setPin_rstc (k : Nat) (v : Bool) : (s.setPin k v).rstc = s.rstc := rfl
@[simp] theorem setPin_answer (k : Nat) (v : Bool) : (s.setPin k v).answer = s.answer := rfl
@[simp] theorem setPin_env (k : Nat) (v : Bool) : (s.setPin k v).env = s.env := rfl


/-! ## `State.raise` -/

@[simp] theorem raise_cfg (x : Status) (i : Nat) (b : Option Byte) (v : Option Half) : (s.raise x i b v).cfg = s.cfg := rfl
@[simp] theorem raise_table (x : Status) (i : Nat) (b : Option Byte) (v : Option Half) : (s.raise x i b v).table = s.table := rfl
@[simp] theorem raise_ph (x : Status) (i : Nat) (b : Option Byte) (v : Option Half) : (s.raise x i b v).ph = s.ph := rfl
@[simp] theorem raise_cur (x : Status) (i : Nat) (b : Option Byte) (v : Option Half) : (s.raise x i b v).cur = s.cur := rfl
@[simp] theorem raise_cnt (x : Status) (i : Nat) (b : Option Byte) (v : Option Half) : (s.raise x i b v).cnt = s.cnt := rfl
@[simp] theorem raise_cmp (x : Status) (i : Nat) (b : Option Byte) (v : Option Half) : (s.raise x i b v).cmp = s.cmp := rfl
@[simp] theorem raise_mf (x : Status) (i : Nat) (b : Option Byte) (v : Option Half) : (s.raise x i b v).mf = s.mf := rfl
@[simp] theorem raise_pins (x : Status) (i : Nat) (b : Option Byte) (v : Option Half) : (s.raise x i b v).pins = s.pins := rfl
@[simp] theorem raise_rstp (x : Status) (i : Nat) (b : Option Byte) (v : Option Half) : (s.raise x i b v).rstp = s.rstp := rfl
@[simp] theorem raise_rstc (x : Status) (i : Nat) (b : Option Byte) (v : Option Half) : (s.raise x i b v).rstc = s.rstc := rfl
@[simp] theorem raise_answer (x : Status) (i : Nat) (b : Option Byte) (v : Option Half) : (s.raise x i b v).answer = some (raised x i b v) := rfl
@[simp] theorem raise_env (x : Status) (i : Nat) (b : Option Byte) (v : Option Half) : (s.raise x i b v).env = s.env := rfl


/-! ## `State.enterHandler` -/

@[simp] theorem enterHandler_cfg : (s.enterHandler).cfg = s.cfg := rfl
@[simp] theorem enterHandler_table : (s.enterHandler).table = s.table := rfl
@[simp] theorem enterHandler_ph : (s.enterHandler).ph = s.ph := rfl
@[simp] theorem enterHandler_cur : (s.enterHandler).cur = s.cur := rfl
@[simp] theorem enterHandler_cnt : (s.enterHandler).cnt = s.cnt := rfl
@[simp] theorem enterHandler_cmp : (s.enterHandler).cmp = s.cmp := rfl
@[simp] theorem enterHandler_mf : (s.enterHandler).mf = false := rfl
@[simp] theorem enterHandler_pins : (s.enterHandler).pins = s.pins := rfl
@[simp] theorem enterHandler_rstp : (s.enterHandler).rstp = s.rstp := rfl
@[simp] theorem enterHandler_rstc : (s.enterHandler).rstc = s.rstc := rfl
@[simp] theorem enterHandler_answer : (s.enterHandler).answer = s.answer := rfl
@[simp] theorem enterHandler_env : (s.enterHandler).env = s.env := rfl


/-! ## `State.program` -/

@[simp] theorem program_cfg (c n : Byte) (ph : Phase) : (s.program c n ph).cfg = s.cfg := rfl
@[simp] theorem program_table (c n : Byte) (ph : Phase) : (s.program c n ph).table = s.table := rfl
@[simp] theorem program_ph (c n : Byte) (ph : Phase) : (s.program c n ph).ph = ph := rfl
@[simp] theorem program_cur (c n : Byte) (ph : Phase) : (s.program c n ph).cur = s.cur := rfl
@[simp] theorem program_cnt (c n : Byte) (ph : Phase) : (s.program c n ph).cnt = n := rfl
@[simp] theorem program_cmp (c n : Byte) (ph : Phase) : (s.program c n ph).cmp = c := rfl
@[simp] theorem program_mf (c n : Byte) (ph : Phase) : (s.program c n ph).mf = s.mf := rfl
@[simp] theorem program_pins (c n : Byte) (ph : Phase) : (s.program c n ph).pins = s.pins := rfl
@[simp] theorem program_rstp (c n : Byte) (ph : Phase) : (s.program c n ph).rstp = s.rstp := rfl
@[simp] theorem program_rstc (c n : Byte) (ph : Phase) : (s.program c n ph).rstc = s.rstc := rfl
@[simp] theorem program_answer (c n : Byte) (ph : Phase) : (s.program c n ph).answer = s.answer := rfl
@[simp] theorem program_env (c n : Byte) (ph : Phase) : (s.program c n ph).env = s.env := rfl


/-! ## `State.advanceChannel` -/

@[simp] theorem advanceChannel_cfg : (s.advanceChannel).cfg = s.cfg := rfl
@[simp] theorem advanceChannel_table : (s.advanceChannel).table = s.table := rfl
@[simp] theorem advanceChannel_ph : (s.advanceChannel).ph = s.ph := rfl
@[simp] theorem advanceChannel_cur : (s.advanceChannel).cur = (s.cur + 1) % s.cfg.n := rfl
@[simp] theorem advanceChannel_cnt : (s.advanceChannel).cnt = s.cnt := rfl
@[simp] theorem advanceChannel_cmp : (s.advanceChannel).cmp = s.cmp := rfl
@[simp] theorem advanceChannel_mf : (s.advanceChannel).mf = s.mf := rfl
@[simp] theorem advanceChannel_pins : (s.advanceChannel).pins = s.pins := rfl
@[simp] theorem advanceChannel_rstp : (s.advanceChannel).rstp = s.rstp := rfl
@[simp] theorem advanceChannel_rstc : (s.advanceChannel).rstc = s.rstc := rfl
@[simp] theorem advanceChannel_answer : (s.advanceChannel).answer = s.answer := rfl
@[simp] theorem advanceChannel_env : (s.advanceChannel).env = s.env := rfl


/-! ## `State.count` -/

@[simp] theorem count_cfg : (s.count).cfg = s.cfg := rfl
@[simp] theorem count_table : (s.count).table = s.table := rfl
@[simp] theorem count_ph : (s.count).ph = s.ph := rfl
@[simp] theorem count_cur : (s.count).cur = s.cur := rfl
@[simp] theorem count_cnt : (s.count).cnt = s.cnt + 1#8 := rfl
@[simp] theorem count_cmp : (s.count).cmp = s.cmp := rfl
@[simp] theorem count_mf : (s.count).mf = matchFlag s.mf (s.cnt + 1#8) s.cmp := rfl
@[simp] theorem count_pins : (s.count).pins = s.pins := rfl
@[simp] theorem count_rstp : (s.count).rstp = s.rstp := rfl
@[simp] theorem count_rstc : (s.count).rstc = s.rstc := rfl
@[simp] theorem count_answer : (s.count).answer = s.answer := rfl
@[simp] theorem count_env : (s.count).env = s.env := rfl


/-! ## `State.withSched` -/

@[simp] theorem withSched_cfg (rest : List Turn) : (s.withSched rest).cfg = s.cfg := rfl
@[simp] theorem withSched_table (rest : List Turn) : (s.withSched rest).table = s.table := rfl
@[simp] theorem withSched_ph (rest : List Turn) : (s.withSched rest).ph = s.ph := rfl
@[simp] theorem withSched_cur (rest : List Turn) : (s.withSched rest).cur = s.cur := rfl
@[simp] theorem withSched_cnt (rest : List Turn) : (s.withSched rest).cnt = s.cnt := rfl
@[simp] theorem withSched_cmp (rest : List Turn) : (s.withSched rest).cmp = s.cmp := rfl
@[simp] theorem withSched_mf (rest : List Turn) : (s.withSched rest).mf = s.mf := rfl
@[simp] theorem withSched_pins (rest : List Turn) : (s.withSched rest).pins = s.pins := rfl
@[simp] theorem withSched_rstp (rest : List Turn) : (s.withSched rest).rstp = s.rstp := rfl
@[simp] theorem withSched_rstc (rest : List Turn) : (s.withSched rest).rstc = s.rstc := rfl
@[simp] theorem withSched_answer (rest : List Turn) : (s.withSched rest).answer = s.answer := rfl
@[simp] theorem withSched_env (rest : List Turn) : (s.withSched rest).env = { s.env with sched := rest } := rfl


/-! ## `State.resetIn` -/

@[simp] theorem resetIn_cfg (p : Params) (e : Env) : (State.resetIn p e).cfg = p := rfl
@[simp] theorem resetIn_table (p : Params) (e : Env) : (State.resetIn p e).table = List.replicate p.n (Channel.atReset p) := rfl
@[simp] theorem resetIn_ph (p : Params) (e : Env) : (State.resetIn p e).ph = .setPinHigh := rfl
@[simp] theorem resetIn_cur (p : Params) (e : Env) : (State.resetIn p e).cur = p.initChannel := rfl
@[simp] theorem resetIn_cnt (p : Params) (e : Env) : (State.resetIn p e).cnt = 0#8 := rfl
@[simp] theorem resetIn_cmp (p : Params) (e : Env) : (State.resetIn p e).cmp = 0#8 := rfl
@[simp] theorem resetIn_mf (p : Params) (e : Env) : (State.resetIn p e).mf = false := rfl
@[simp] theorem resetIn_pins (p : Params) (e : Env) : (State.resetIn p e).pins = List.replicate p.n false := rfl
@[simp] theorem resetIn_rstp (p : Params) (e : Env) : (State.resetIn p e).rstp = false := rfl
@[simp] theorem resetIn_rstc (p : Params) (e : Env) : (State.resetIn p e).rstc = 0 := rfl
@[simp] theorem resetIn_answer (p : Params) (e : Env) : (State.resetIn p e).answer = none := rfl
@[simp] theorem resetIn_env (p : Params) (e : Env) : (State.resetIn p e).env = e := rfl

theorem resetNow_eq : s.resetNow = State.resetIn s.cfg { s.env with late := 0 } := rfl

/-! ## `State.drivePin`: everything but the pins -/

@[simp] theorem drivePin_cfg (v : Bool) : (s.drivePin v).cfg = s.cfg := by
  unfold State.drivePin; split <;> rfl

@[simp] theorem drivePin_table (v : Bool) : (s.drivePin v).table = s.table := by
  unfold State.drivePin; split <;> rfl

@[simp] theorem drivePin_ph (v : Bool) : (s.drivePin v).ph = s.ph := by
  unfold State.drivePin; split <;> rfl

@[simp] theorem drivePin_cur (v : Bool) : (s.drivePin v).cur = s.cur := by
  unfold State.drivePin; split <;> rfl

@[simp] theorem drivePin_cnt (v : Bool) : (s.drivePin v).cnt = s.cnt := by
  unfold State.drivePin; split <;> rfl

@[simp] theorem drivePin_cmp (v : Bool) : (s.drivePin v).cmp = s.cmp := by
  unfold State.drivePin; split <;> rfl

@[simp] theorem drivePin_mf (v : Bool) : (s.drivePin v).mf = s.mf := by
  unfold State.drivePin; split <;> rfl

@[simp] theorem drivePin_rstp (v : Bool) : (s.drivePin v).rstp = s.rstp := by
  unfold State.drivePin; split <;> rfl

@[simp] theorem drivePin_rstc (v : Bool) : (s.drivePin v).rstc = s.rstc := by
  unfold State.drivePin; split <;> rfl

@[simp] theorem drivePin_answer (v : Bool) : (s.drivePin v).answer = s.answer := by
  unfold State.drivePin; split <;> rfl

@[simp] theorem drivePin_env (v : Bool) : (s.drivePin v).env = s.env := by
  unfold State.drivePin; split <;> rfl

theorem drivePin_pins (v : Bool) :
    (s.drivePin v).pins = if s.curChan.en then s.pins.set s.cur v else s.pins := by
  unfold State.drivePin; split <;> rfl

/-! ## Reading a channel after an update -/

@[simp] theorem withAnswer_chan (a : Answer) (k : Nat) : (s.withAnswer a).chan k = s.chan k := rfl
@[simp] theorem raise_chan (x : Status) (i : Nat) (b : Option Byte) (v : Option Half) (k : Nat) :
    (s.raise x i b v).chan k = s.chan k := rfl
@[simp] theorem setPin_chan (j : Nat) (v : Bool) (k : Nat) : (s.setPin j v).chan k = s.chan k := rfl
@[simp] theorem enterHandler_chan (k : Nat) : s.enterHandler.chan k = s.chan k := rfl
@[simp] theorem program_chan (c n : Byte) (ph : Phase) (k : Nat) : (s.program c n ph).chan k = s.chan k := rfl
@[simp] theorem advanceChannel_chan (k : Nat) : s.advanceChannel.chan k = s.chan k := rfl
@[simp] theorem count_chan (k : Nat) : s.count.chan k = s.chan k := rfl
@[simp] theorem withSched_chan (rest : List Turn) (k : Nat) : (s.withSched rest).chan k = s.chan k := rfl
@[simp] theorem drivePin_chan (v : Bool) (k : Nat) : (s.drivePin v).chan k = s.chan k := by
  unfold State.drivePin; split <;> rfl

/-- Inside the table a record is the list's entry. -/
theorem chan_eq_getElem {k : Nat} (h : k < s.table.length) : s.chan k = s.table[k] := by
  simp [State.chan, h]

/-- A record read inside the table is one of its records. -/
theorem chan_mem {k : Nat} (h : k < s.table.length) : s.chan k ∈ s.table := by
  rw [chan_eq_getElem s h]; exact List.getElem_mem h

/-- What `EN[k] <- v` leaves in every record. -/
theorem setEn_chan {k : Nat} (v : Bool) (h : k < s.table.length) (j : Nat) :
    (s.setEn k v).chan j = if j = k then { s.chan k with en := v } else s.chan j := by
  by_cases hj : j = k
  · subst hj; simp [State.chan, h]
  · simp [State.chan, Ne.symm hj, hj]

/-- What `PT[k] <- v` leaves in every record. -/
theorem setPt_chan {k : Nat} (v : Byte) (h : k < s.table.length) (j : Nat) :
    (s.setPt k v).chan j = if j = k then { s.chan k with pt := v } else s.chan j := by
  by_cases hj : j = k
  · subst hj; simp [State.chan, h]
  · simp [State.chan, Ne.symm hj, hj]

/-! ## One field of a record after an update, inside the table and outside it -/

/-- Field `f` of every record keeps its value where the update of record `k` keeps `f`, or at every other record. -/
theorem modify_chan_field {α : Type} (f : Channel → α) {g : Channel → Channel} {k j : Nat}
    (h : j = k → ∀ c, f (g c) = f c) :
    f (((s.table.modify k g)[j]?).getD (Channel.atReset s.cfg)) = f (s.chan j) := by
  unfold State.chan
  rw [List.getElem?_modify]
  by_cases hj : k = j
  · cases s.table[j]? <;> simp [hj, h hj.symm]
  · cases s.table[j]? <;> simp [hj]

@[simp] theorem setEn_chan_pt (k : Nat) (v : Bool) (j : Nat) :
    ((s.setEn k v).chan j).pt = (s.chan j).pt :=
  modify_chan_field s Channel.pt fun _ _ => rfl
@[simp] theorem setEn_chan_minUs (k : Nat) (v : Bool) (j : Nat) :
    ((s.setEn k v).chan j).minUs = (s.chan j).minUs :=
  modify_chan_field s Channel.minUs fun _ _ => rfl
@[simp] theorem setEn_chan_maxUs (k : Nat) (v : Bool) (j : Nat) :
    ((s.setEn k v).chan j).maxUs = (s.chan j).maxUs :=
  modify_chan_field s Channel.maxUs fun _ _ => rfl
@[simp] theorem setPt_chan_en (k : Nat) (v : Byte) (j : Nat) :
    ((s.setPt k v).chan j).en = (s.chan j).en :=
  modify_chan_field s Channel.en fun _ _ => rfl
@[simp] theorem setPt_chan_minUs (k : Nat) (v : Byte) (j : Nat) :
    ((s.setPt k v).chan j).minUs = (s.chan j).minUs :=
  modify_chan_field s Channel.minUs fun _ _ => rfl
@[simp] theorem setPt_chan_maxUs (k : Nat) (v : Byte) (j : Nat) :
    ((s.setPt k v).chan j).maxUs = (s.chan j).maxUs :=
  modify_chan_field s Channel.maxUs fun _ _ => rfl
theorem setEn_chan_en_of_ne {k j : Nat} (v : Bool) (h : j ≠ k) : ((s.setEn k v).chan j).en = (s.chan j).en :=
  modify_chan_field s Channel.en fun e => absurd e h
theorem setPt_chan_pt_of_ne {k j : Nat} (v : Byte) (h : j ≠ k) : ((s.setPt k v).chan j).pt = (s.chan j).pt :=
  modify_chan_field s Channel.pt fun e => absurd e h

/-! ## Reading a pin after an update -/

/-- What `PIN[k] <- v` leaves on every pin. -/
theorem setPin_pin {k : Nat} (v : Bool) (h : k < s.pins.length) (j : Nat) :
    (s.setPin k v).pin j = if j = k then v else s.pin j := by
  by_cases hj : j = k
  · subst hj; simp [State.pin, h]
  · simp [State.pin, Ne.symm hj, hj]

/-- What driving the current pin leaves on every pin. -/
theorem drivePin_pin (v : Bool) (h : s.cur < s.pins.length) (j : Nat) :
    (s.drivePin v).pin j = if j = s.cur ∧ s.curChan.en = true then v else s.pin j := by
  unfold State.drivePin
  by_cases he : s.curChan.en = true
  · simp [he, setPin_pin s v h]
  · simp [he]

/-! ## After reset -/

theorem resetIn_chan (p : Params) (e : Env) (k : Nat) :
    (State.resetIn p e).chan k = Channel.atReset p := by
  by_cases h : k < p.n
  · simp [State.chan, h]
  · simp [State.chan, h]

theorem resetIn_pin (p : Params) (e : Env) (k : Nat) : (State.resetIn p e).pin k = false := by
  by_cases h : k < p.n
  · simp [State.pin, h]
  · simp [State.pin, h]

end Sys2Proof.Machine
end

