-- ==== Sys2Proof/Laws/Ops.lean ====
section
/-! SUPPORT. For each shared operation, once, everything it can do; the provers cite these instead of unfolding. -/

namespace Sys2Proof.Machine

variable {s t u : State}

/-! ## When an agent has a step -/

theorem onInstance_of_valid (h : s.cfg.valid = true) : onInstance s u = .next u := by
  simp [onInstance, h]

/-- `onInstance` answers a next state exactly on a legal instance. -/
theorem onInstance_eq_next : onInstance s u = .next t ↔ s.cfg.valid = true ∧ t = u := by
  unfold onInstance
  split
  · simp [*, eq_comm]
  · simp [*]

/-- Everything a Host step can do: wait while a reset is pending, or its body. -/
theorem hostStep_eq_next {body : State → State} :
    hostStep s body = .next t ↔
      s.cfg.valid = true ∧ ((s.rstp = true ∧ t = s) ∨ (s.rstp = false ∧ t = body s)) := by
  unfold hostStep
  rw [onInstance_eq_next]
  cases s.rstp <;> simp

theorem hostStep_of_free {body : State → State} (hv : s.cfg.valid = true) (hr : s.rstp = false) :
    hostStep s body = .next (body s) := by
  simp [hostStep, onInstance, hv, hr]

theorem hostStep_of_pending {body : State → State} (hv : s.cfg.valid = true) (hr : s.rstp = true) :
    hostStep s body = .next s := by
  simp [hostStep, onInstance, hv, hr]

/-- Everything a handler step can do: nothing where its row is not enabled, or entry and the row. -/
theorem handlerStep_eq_next {row : Row} {body : State → State} :
    handlerStep s row body = .next t ↔
      s.cfg.valid = true ∧
        ((s.rowEnabled row = false ∧ t = s) ∨ (s.rowEnabled row = true ∧ t = body s.enterHandler)) := by
  unfold handlerStep
  rw [onInstance_eq_next]
  cases s.rowEnabled row <;> simp

theorem handlerStep_of_enabled {row : Row} {body : State → State} (hv : s.cfg.valid = true)
    (he : s.rowEnabled row = true) : handlerStep s row body = .next (body s.enterHandler) := by
  simp [handlerStep, onInstance, hv, he]

theorem handlerStep_of_disabled {row : Row} {body : State → State} (hv : s.cfg.valid = true)
    (he : s.rowEnabled row = false) : handlerStep s row body = .next s := by
  simp [handlerStep, onInstance, hv, he]

/-- A row is enabled exactly when the flag is set and the phase selects it. -/
theorem rowEnabled_eq_true {row : Row} : s.rowEnabled row = true ↔ s.mf = true ∧ s.row = row := by
  simp [State.rowEnabled]

/-! ## The index test and the two stores -/

theorem indexed_of_lt {idx : Byte} {v : Option Half} {body : State → State} (h : idx.toNat < s.cfg.n) :
    indexed idx v s body = body s := by
  simp [indexed, h]

theorem indexed_of_ge {idx : Byte} {v : Option Half} {body : State → State} (h : s.cfg.n ≤ idx.toNat) :
    indexed idx v s body = s.raise .invalidIndex idx.toNat none v := by
  simp [indexed, Nat.not_lt.mpr h]

/-- Everything `SET_US` can do after its index test. -/
theorem storeWidth_cases (k us : Nat) (s : State) :
    (usToTicks s.cfg.tickUs us = none ∧ storeWidth k us s = s.raise .invalidValue us none none) ∨
    (∃ pt, usToTicks s.cfg.tickUs us = some pt ∧
      storeWidth k us s = (s.setPt k pt).withAnswer answerDone) := by
  unfold storeWidth
  cases h : usToTicks s.cfg.tickUs us with
  | none => exact .inl ⟨rfl, rfl⟩
  | some pt => exact .inr ⟨pt, rfl, rfl⟩

/-- Everything `SET_POS` can do after its index test. -/
theorem storeAngle_cases (k deg : Nat) (s : State) :
    (maxDegrees < deg ∧ storeAngle k deg s = s.raise .invalidValue deg none none) ∨
    (deg ≤ maxDegrees ∧ storeAngle k deg s = storeWidth k (degToUs (s.chan k) deg) s) := by
  unfold storeAngle
  by_cases h : deg > maxDegrees
  · exact .inl ⟨h, by simp [h]⟩
  · exact .inr ⟨Nat.le_of_not_lt h, by simp [h]⟩

/-! ## What the stores leave alone -/

/-- `t` differs from `s` in the table and the answer at most, the table keeps its length, and every record
keeps its range: what every Host step but the commanded reset does. -/
structure HostFrame (s t : State) : Prop where
  rest : { t with table := s.table, answer := s.answer } = s
  table_length : t.table.length = s.table.length
  ranges : ∀ c ∈ t.table, ∃ d ∈ s.table, c.minUs = d.minUs ∧ c.maxUs = d.maxUs

theorem HostFrame.refl (s : State) : HostFrame s s :=
  ⟨rfl, rfl, fun c hc => ⟨c, hc, rfl, rfl⟩⟩

theorem HostFrame.withAnswer {a : Answer} (h : HostFrame s t) : HostFrame s (t.withAnswer a) :=
  ⟨h.rest, h.table_length, h.ranges⟩

theorem HostFrame.raise {x : Status} {i : Nat} {b : Option Byte} {v : Option Half} (h : HostFrame s t) :
    HostFrame s (t.raise x i b v) :=
  ⟨h.rest, h.table_length, h.ranges⟩

theorem mem_modify_ranges {l : List Channel} {k : Nat} {f : Channel → Channel} {c : Channel}
    (hf : ∀ d, (f d).minUs = d.minUs ∧ (f d).maxUs = d.maxUs) (hc : c ∈ l.modify k f) :
    ∃ d ∈ l, c.minUs = d.minUs ∧ c.maxUs = d.maxUs := by
  obtain ⟨j, hj, rfl⟩ := List.mem_iff_getElem.mp hc
  rw [List.length_modify] at hj
  refine ⟨l[j], List.getElem_mem hj, ?_⟩
  rw [List.getElem_modify]
  split
  · exact hf _
  · exact ⟨rfl, rfl⟩

theorem hostFrame_setEn (s : State) (k : Nat) (v : Bool) : HostFrame s (s.setEn k v) :=
  ⟨rfl, List.length_modify .., fun _ hc =>
    mem_modify_ranges (f := fun c => { c with en := v }) (fun _ => ⟨rfl, rfl⟩) hc⟩

theorem hostFrame_setPt (s : State) (k : Nat) (v : Byte) : HostFrame s (s.setPt k v) :=
  ⟨rfl, List.length_modify .., fun _ hc =>
    mem_modify_ranges (f := fun c => { c with pt := v }) (fun _ => ⟨rfl, rfl⟩) hc⟩

theorem hostFrame_storeWidth (k us : Nat) (s : State) : HostFrame s (storeWidth k us s) := by
  rcases storeWidth_cases k us s with ⟨-, h⟩ | ⟨pt, -, h⟩
  · rw [h]; exact (HostFrame.refl s).raise
  · rw [h]; exact (hostFrame_setPt s k pt).withAnswer

theorem hostFrame_storeAngle (k deg : Nat) (s : State) : HostFrame s (storeAngle k deg s) := by
  rcases storeAngle_cases k deg s with ⟨-, h⟩ | ⟨-, h⟩
  · rw [h]; exact (HostFrame.refl s).raise
  · rw [h]; exact hostFrame_storeWidth ..

theorem hostFrame_indexed {idx : Byte} {v : Option Half} {body : State → State}
    (h : HostFrame s (body s)) : HostFrame s (indexed idx v s body) := by
  unfold indexed
  split
  · exact h
  · exact (HostFrame.refl s).raise

/-- `t` differs from `s` in what the handler writes at most: phase, current channel, timer and pins. -/
structure HandlerFrame (s t : State) : Prop where
  rest : { t with ph := s.ph, cur := s.cur, cnt := s.cnt, cmp := s.cmp, mf := s.mf, pins := s.pins } = s
  pins_length : t.pins.length = s.pins.length

theorem HandlerFrame.refl (s : State) : HandlerFrame s s := ⟨rfl, rfl⟩

theorem HandlerFrame.trans (h : HandlerFrame s t) (h' : HandlerFrame t u) : HandlerFrame s u := by
  refine ⟨?_, h'.pins_length.trans h.pins_length⟩
  have h1 := h.rest
  rw [← h'.rest] at h1
  exact h1

theorem handlerFrame_enter (s : State) : HandlerFrame s s.enterHandler := ⟨rfl, rfl⟩
theorem handlerFrame_program (s : State) (c n : Byte) (ph : Phase) : HandlerFrame s (s.program c n ph) :=
  ⟨rfl, rfl⟩
theorem handlerFrame_advance (s : State) : HandlerFrame s s.advanceChannel := ⟨rfl, rfl⟩
theorem handlerFrame_setPin (s : State) (k : Nat) (v : Bool) : HandlerFrame s (s.setPin k v) :=
  ⟨rfl, List.length_set⟩
theorem handlerFrame_drivePin (s : State) (v : Bool) : HandlerFrame s (s.drivePin v) := by
  unfold State.drivePin
  split
  · exact handlerFrame_setPin ..
  · exact HandlerFrame.refl s

/-! ## The answers -/

@[simp] theorem answerDone_status : answerDone.status = .ok := rfl
@[simp] theorem answerByte_status (b : Byte) : (answerByte b).status = .ok := rfl
@[simp] theorem answerValue_status (v : Half) : (answerValue v).status = .ok := rfl
@[simp] theorem raised_status (x : Status) (i : Nat) (b : Option Byte) (v : Option Half) :
    (raised x i b v).status = x := rfl

/-! ## The flag -/

/-- `MF` after a tick is set exactly when it was set or the tick matches. -/
theorem matchFlag_eq_true {m : Bool} {c v : Byte} : matchFlag m c v = true ↔ m = true ∨ c = v := by
  simp [matchFlag]

/-! ## The next turn -/

theorem pick_nil_flag (hs : s.env.sched = []) (hm : s.mf = true) : pick s = handlerTurn [] s := by
  simp [pick, hs, hm]

theorem pick_nil_tick (hs : s.env.sched = []) (hm : s.mf = false) : pick s = tickTurn [] s := by
  simp [pick, hs, hm]

/-- Everything the next turn can be. -/
theorem pick_cases (s : State) :
    (∃ rest, s.env.sched = .powerOn :: rest ∧ pick s = .run (.ev 1#1) (s.withSched rest)) ∨
    (∃ rest, s.handlerDue = false ∧ pick s = tickTurn rest s) ∨
    (∃ rest, s.mf = true ∧ pick s = handlerTurn rest s) ∨
    (∃ rest, s.env.sched = .host :: rest ∧ pick s = hostTurn rest s) ∨
    (∃ rest, pick s = .idle (s.withSched rest)) := by
  unfold pick
  split
  · by_cases hm : s.mf = true
    · exact .inr (.inr (.inl ⟨[], hm, by simp [hm]⟩))
    · exact .inr (.inl ⟨[], by simp [State.handlerDue, hm], by simp [hm]⟩)
  · rename_i rest h
    exact .inl ⟨rest, h, rfl⟩
  · rename_i rest _
    by_cases hd : s.handlerDue = true
    · refine .inr (.inr (.inl ⟨.timer :: rest, ?_, by simp [hd]⟩))
      simp only [State.handlerDue, Bool.and_eq_true] at hd
      exact hd.1
    · exact .inr (.inl ⟨rest, by simpa using hd, by simp [hd]⟩)
  · rename_i rest _
    by_cases hm : s.mf = true
    · exact .inr (.inr (.inl ⟨rest, hm, by simp [hm]⟩))
    · exact .inr (.inr (.inr (.inr ⟨rest, by simp [hm]⟩)))
  · rename_i rest h
    exact .inr (.inr (.inr (.inl ⟨rest, h, rfl⟩)))

/-- Everything the Host's turn can be. -/
theorem hostTurn_cases (rest : List Turn) (s : State) :
    (hostTurn rest s = .idle (s.withSched rest) ∧ (s.rstp = true ∨ s.env.hostPort = [])) ∨
    (∃ w ws, s.rstp = false ∧ s.env.hostPort = w :: ws ∧
      hostTurn rest s =
        .run w.toPort { s with env := { s.env with sched := rest, hostPort := ws } }) := by
  unfold hostTurn
  by_cases hr : s.rstp = true
  · exact .inl ⟨by simp [hr], .inl hr⟩
  · cases hp : s.env.hostPort with
    | nil => exact .inl ⟨by simp [hr], .inr rfl⟩
    | cons w ws => exact .inr ⟨w, ws, by simpa using hr, rfl, by simp [hr]⟩

/-- One step on a legal instance. -/
theorem step_of_valid (h : s.cfg.valid = true) :
    step s = match pick s with
      | .run w t => exec (t.decoded w) t
      | .idle t => .next t := by
  cases hp : pick s <;> simp [step, h, hp]

end Sys2Proof.Machine
end

