-- ==== Sys2Proof/Laws/Exec.lean ====
section
/-! SUPPORT. The meaning of every instruction where its agent has a step, as one equation each; later proofs
cite these instead of unfolding `exec`. -/

namespace Sys2Proof.Machine

/-! ## Register transactions -/

theorem exec_rdReset (d : Byte) {s : State} (hv : s.cfg.valid = true) (hr : s.rstp = false) :
    exec (.rdReset d) s = .next (s.withAnswer (answerByte noDataByte)) := by
  rw [exec, execRdReset, hostStep_of_free hv hr]

theorem exec_wrResetZ {s : State} (hv : s.cfg.valid = true) (hr : s.rstp = false) :
    exec .wrResetZ s = .next (s.withAnswer answerDone) := by
  rw [exec, execWrResetZ, hostStep_of_free hv hr]

theorem exec_wrResetNz (d : Byte) {s : State} (hv : s.cfg.valid = true) (hr : s.rstp = false) :
    exec (.wrResetNz d) s = .next ({ s with rstp := true, rstc := s.cfg.resetDelayTicks, answer := some answerDone }) := by
  rw [exec, execWrResetNz, hostStep_of_free hv hr]

theorem exec_rdEnable (k : BitVec 4) (d : Byte) {s : State} (hv : s.cfg.valid = true) (hr : s.rstp = false) :
    exec (.rdEnable k d) s = .next (s.withAnswer (answerByte (enableByte (s.chan k.toNat)))) := by
  rw [exec, execRdEnable, hostStep_of_free hv hr]

theorem exec_wrEnable (k : BitVec 4) (v : Byte) {s : State} (hv : s.cfg.valid = true) (hr : s.rstp = false) :
    exec (.wrEnable k v) s = .next ((s.setEn k.toNat (v != 0#8)).withAnswer answerDone) := by
  rw [exec, execWrEnable, hostStep_of_free hv hr]

theorem exec_rdPosition (k : BitVec 4) (d : Byte) {s : State} (hv : s.cfg.valid = true) (hr : s.rstp = false) :
    exec (.rdPosition k d) s = .next (s.withAnswer (answerByte (positionByte s.cfg.tickUs (s.chan k.toNat)))) := by
  rw [exec, execRdPosition, hostStep_of_free hv hr]

theorem exec_wrPosition (k : BitVec 4) (v : Byte) {s : State} (hv : s.cfg.valid = true) (hr : s.rstp = false) :
    exec (.wrPosition k v) s = .next (storeAngle k.toNat v.toNat s) := by
  rw [exec, execWrPosition, hostStep_of_free hv hr]

theorem exec_rdTicks (k : BitVec 4) (d : Byte) {s : State} (hv : s.cfg.valid = true) (hr : s.rstp = false) :
    exec (.rdTicks k d) s = .next (s.withAnswer (answerByte (s.chan k.toNat).pt)) := by
  rw [exec, execRdTicks, hostStep_of_free hv hr]

theorem exec_wrTicks (k : BitVec 4) (v : Byte) {s : State} (hv : s.cfg.valid = true) (hr : s.rstp = false) :
    exec (.wrTicks k v) s = .next ((s.setPt k.toNat v).withAnswer answerDone) := by
  rw [exec, execWrTicks, hostStep_of_free hv hr]

theorem exec_rdUndef (a d : Byte) {s : State} (hv : s.cfg.valid = true) (hr : s.rstp = false) :
    exec (.rdUndef a d) s = .next (s.raise .unrecognizedAddress a.toNat (some noDataByte) none) := by
  rw [exec, execRdUndef, hostStep_of_free hv hr]

theorem exec_wrUndef (a d : Byte) {s : State} (hv : s.cfg.valid = true) (hr : s.rstp = false) :
    exec (.wrUndef a d) s = .next (s.raise .unrecognizedAddress a.toNat none none) := by
  rw [exec, execWrUndef, hostStep_of_free hv hr]

/-! ## Channel Table operations -/

theorem exec_enable (x : Byte) (a : Half) {s : State} (hv : s.cfg.valid = true) (hr : s.rstp = false) :
    exec (.enable x a) s = .next (indexed x none s fun s => (s.setEn x.toNat true).withAnswer answerDone) := by
  rw [exec, execEnable, hostStep_of_free hv hr]

theorem exec_disable (x : Byte) (a : Half) {s : State} (hv : s.cfg.valid = true) (hr : s.rstp = false) :
    exec (.disable x a) s = .next (indexed x none s fun s => (s.setEn x.toNat false).withAnswer answerDone) := by
  rw [exec, execDisable, hostStep_of_free hv hr]

theorem exec_isEnabled (x : Byte) (a : Half) {s : State} (hv : s.cfg.valid = true) (hr : s.rstp = false) :
    exec (.isEnabled x a) s = .next (indexed x (some 0#16) s fun s => s.withAnswer (answerValue (enableHalf (s.chan x.toNat)))) := by
  rw [exec, execIsEnabled, hostStep_of_free hv hr]

theorem exec_setPos (x : Byte) (a : Half) {s : State} (hv : s.cfg.valid = true) (hr : s.rstp = false) :
    exec (.setPos x a) s = .next (indexed x none s fun s => storeAngle x.toNat a.toNat s) := by
  rw [exec, execSetPos, hostStep_of_free hv hr]

theorem exec_getPos (x : Byte) (a : Half) {s : State} (hv : s.cfg.valid = true) (hr : s.rstp = false) :
    exec (.getPos x a) s = .next (indexed x (some 0#16) s fun s => s.withAnswer (answerValue (positionHalf s.cfg.tickUs (s.chan x.toNat)))) := by
  rw [exec, execGetPos, hostStep_of_free hv hr]

theorem exec_setUs (x : Byte) (a : Half) {s : State} (hv : s.cfg.valid = true) (hr : s.rstp = false) :
    exec (.setUs x a) s = .next (indexed x none s fun s => storeWidth x.toNat a.toNat s) := by
  rw [exec, execSetUs, hostStep_of_free hv hr]

theorem exec_getUs (x : Byte) (a : Half) {s : State} (hv : s.cfg.valid = true) (hr : s.rstp = false) :
    exec (.getUs x a) s = .next (indexed x (some 0#16) s fun s => s.withAnswer (answerValue (widthUs s.cfg.tickUs (s.chan x.toNat)))) := by
  rw [exec, execGetUs, hostStep_of_free hv hr]

theorem exec_opUndef7 (x : Byte) (a : Half) {s : State} (hv : s.cfg.valid = true) (hr : s.rstp = false) :
    exec (.opUndef7 x a) s = .next (s.raise .unrecognizedAddress 7 none (some 0#16)) := by
  rw [exec, execOpUndef7, hostStep_of_free hv hr]

theorem exec_opUndef8F (l : BitVec 3) (x : Byte) (a : Half) {s : State} (hv : s.cfg.valid = true) (hr : s.rstp = false) :
    exec (.opUndef8F l x a) s = .next (s.raise .unrecognizedAddress (8 + l.toNat) none (some 0#16)) := by
  rw [exec, execOpUndef8F, hostStep_of_free hv hr]

/-! ## The rows -/

theorem exec_isrSetPinHigh {s : State} (hv : s.cfg.valid = true) (he : s.rowEnabled .setPinHigh = true) :
    exec .isrSetPinHigh s = .next (
      (s.enterHandler.advanceChannel.drivePin true).program (preRollCompare s.cfg) 0#8 .waitPreRoll) := by
  rw [exec, execIsrSetPinHigh, handlerStep_of_enabled hv he]
  rfl

theorem exec_isrSetPinLowShort {s : State} (hv : s.cfg.valid = true) (he : s.rowEnabled .setPinLowShort = true) :
    exec .isrSetPinLowShort s = .next (
      (s.enterHandler.drivePin false).program (shortCompare s.curChan.pt) 0#8 .waitFrameEnd) := by
  rw [exec, execIsrSetPinLowShort, handlerStep_of_enabled hv he]
  rfl

theorem exec_isrSetPinLowLong {s : State} (hv : s.cfg.valid = true) (he : s.rowEnabled .setPinLowLong = true) :
    exec .isrSetPinLowLong s = .next (
      (s.enterHandler.drivePin false).program (longCompare s.curChan.pt) 0#8 .setPinHigh) := by
  rw [exec, execIsrSetPinLowLong, handlerStep_of_enabled hv he]
  rfl

theorem exec_isrWaitFrameEnd {s : State} (hv : s.cfg.valid = true) (he : s.rowEnabled .waitFrameEnd = true) :
    exec .isrWaitFrameEnd s = .next (s.enterHandler.program frameEndCompare 0#8 .setPinHigh) := by
  rw [exec, execIsrWaitFrameEnd, handlerStep_of_enabled hv he]

/-- Both cases of the zero test leave `MF` clear: entry has cleared it (spec/41_timer.md R118). -/
theorem exec_isrWaitPreRoll {s : State} (hv : s.cfg.valid = true) (he : s.rowEnabled .waitPreRoll = true) :
    exec .isrWaitPreRoll s =
      .next (s.enterHandler.program s.curChan.pt (preRollCount s.curChan.pt) .setPinLow) := by
  rw [exec, execIsrWaitPreRoll, handlerStep_of_enabled hv he]
  simp only [enterHandler_mf, ite_self]
  rfl

/-- The row the handler selects, as the instruction it runs. -/
theorem exec_row {s : State} {t : State} (h : isr s = .next t) : exec s.row.instr s = .next t := h

/-! ## The events -/

theorem exec_tick_count {s : State} (hv : s.cfg.valid = true) (hr : s.rstp = false) :
    exec .tick s = .next s.count := by
  simp [exec, execTick, onInstance, hv, hr]

theorem exec_tick_pending {s : State} (hv : s.cfg.valid = true) (hr : s.rstp = true) (hc : s.rstc ≠ 1) :
    exec .tick s = .next { s with rstc := s.rstc - 1 }.count := by
  simp [exec, execTick, onInstance, hv, hr, State.tickPending, hc]

theorem exec_tick_reset {s : State} (hv : s.cfg.valid = true) (hr : s.rstp = true) (hc : s.rstc = 1) :
    exec .tick s = .next s.resetNow := by
  simp [exec, execTick, onInstance, hv, hr, State.tickPending, hc]

theorem exec_por {s : State} (hv : s.cfg.valid = true) : exec .por s = .next s.resetNow := by
  rw [exec, execPor, onInstance_of_valid hv]

end Sys2Proof.Machine
end

