-- ==== Sys2Proof/Laws/Operands.lean ====
section
/-! SUPPORT. What the conversions and the compare values of the rows are, said once. -/

namespace Sys2Proof.Machine

/-- The inputs `us_to_ticks` accepts, and its result on them. -/
theorem usToTicks_eq_some {tickUs us : Nat} {p : Byte} :
    usToTicks tickUs us = some p ↔ 64 ≤ us / tickUs ∧ us / tickUs ≤ 319 ∧ us / tickUs = p.toNat + 64 := by
  unfold usToTicks
  have hp := p.isLt
  constructor
  · intro h
    split at h
    · cases h
    · split at h
      · cases h
      · simp only [Option.some.injEq] at h
        subst h
        simp only [BitVec.toNat_ofNat]
        simp only [Config.preRollTicks, Config.maxTicks] at *
        omega
  · rintro ⟨h1, h2, h3⟩
    rw [if_neg (by simp only [Config.preRollTicks]; omega),
      if_neg (by simp only [Config.preRollTicks, Config.maxTicks]; omega)]
    simp only [Option.some.injEq]
    apply BitVec.eq_of_toNat_eq
    simp only [BitVec.toNat_ofNat, Config.preRollTicks]
    omega

/-- The inputs `us_to_ticks` rejects. -/
theorem usToTicks_eq_none {tickUs us : Nat} :
    usToTicks tickUs us = none ↔ us / tickUs < 64 ∨ 319 < us / tickUs := by
  unfold usToTicks
  simp only [Config.preRollTicks, Config.maxTicks]
  split
  · simp; omega
  · split
    · simp; omega
    · simp; omega

/-- `deg_to_us` is exact at both ends of the range. -/
theorem degToUs_ends (c : Channel) (h : c.minUs.toNat ≤ c.maxUs.toNat) :
    degToUs c 0 = c.minUs.toNat ∧ degToUs c 180 = c.maxUs.toNat := by
  simp only [degToUs]
  constructor <;> omega

/-- `SET_POS` never goes outside the channel's range. -/
theorem degToUs_le (c : Channel) {d : Nat} (hd : d ≤ 180) (h : c.minUs.toNat ≤ c.maxUs.toNat) :
    c.minUs.toNat ≤ degToUs c d ∧ degToUs c d ≤ c.maxUs.toNat := by
  refine ⟨Nat.le_add_right _ _, ?_⟩
  have h1 : d * (c.maxUs.toNat - c.minUs.toNat) / 180 ≤ c.maxUs.toNat - c.minUs.toNat := by
    rw [Nat.div_le_iff_le_mul_add_pred (by omega)]
    nlinarith
  unfold degToUs
  omega

/-- `GET_US` fits 16 bits on a legal instance. -/
theorem widthUs_toNat {tickUs : Nat} (h : tickUs ≤ 205) (c : Channel) :
    (widthUs tickUs c).toNat = (c.pt.toNat + 64) * tickUs := by
  have hp := c.pt.isLt
  have hle : (c.pt.toNat + 64) * tickUs ≤ 319 * 205 := Nat.mul_le_mul (by omega) h
  simp only [widthUs, ticksToUs, BitVec.toNat_ofNat, Config.preRollTicks]
  omega

/-- `CMP` after the `SetPinHigh` row, as a number in `1..64`. -/
theorem preRollCompare_toNat (p : Params) : (preRollCompare p).toNat = 64 - p.isrTrimTicks.val := by
  have h := p.isrTrimTicks.isLt
  simp only [preRollCompare, BitVec.toNat_ofNat, Config.preRollTicks]
  omega

/-- `CMP` after the short `SetPinLow` row. -/
theorem shortCompare_toNat {pt : Byte} (h : pt.toNat ≤ 191) : (shortCompare pt).toNat = 191 - pt.toNat := by
  simp only [shortCompare, BitVec.toNat_ofNat, Config.preRollTicks, Config.maxTicks]
  omega

/-- `CMP` after the long `SetPinLow` row: 256 is kept as 0. -/
theorem longCompare_toNat {pt : Byte} (h : 192 ≤ pt.toNat) :
    (longCompare pt).toNat = if pt.toNat = 192 then 0 else 448 - pt.toNat := by
  have hp := pt.isLt
  simp only [longCompare, BitVec.toNat_ofNat, Config.preRollTicks, Config.frameTicks]
  split <;> omega

@[simp] theorem frameEndCompare_eq : frameEndCompare = 255#8 := rfl

@[simp] theorem preRollCount_zero : preRollCount 0#8 = 255#8 := rfl

theorem preRollCount_of_ne {pt : Byte} (h : pt ≠ 0#8) : preRollCount pt = 0#8 := by
  simp [preRollCount, h]

end Sys2Proof.Machine
end

