-- ==== Sys2Proof/Laws/Inversion.lean ====
section
/-! SUPPORT. Everything an instruction can do, per agent, from the fact that it answered a next state; and how
the frames of Sys2Proof/Safety.lean come about. -/

namespace Sys2Proof

/-- Every instruction belongs to one agent (spec/00_scope.md R9). -/
theorem Instr.agent_cases (i : Instr) :
    i.isHost = true ∨ (∃ r, i.row? = some r) ∨ i = .tick ∨ i = .por := by
  cases i <;> simp [Instr.isHost, Instr.row?]

/-- An undefined address is of class `undef`. -/
theorem classify_of_outsideMap {p : Params} {a : Byte} (h : p.outsideMap a = true) : classify p a = .undef := by
  simp only [Params.outsideMap, Bool.and_eq_true, Bool.not_eq_true', bne_iff_ne] at h
  simp [classify, h.1.1.1, h.1.1.2, h.1.2, h.2]

/-- The address of channel `k` in a range is the base plus `k`, with no carry. -/
theorem channelAddr_toNat {p : Params} {b : Byte} {k : BitVec 4} (hk : k.toNat < p.n)
    (hb : b.toNat + p.n ≤ 256) : (channelAddr b k).toNat = b.toNat + k.toNat := by
  simp only [channelAddr, BitVec.toNat_add, BitVec.toNat_setWidth]
  omega

end Sys2Proof

namespace Sys2Proof.Machine

variable {s t : State}

/-! ## The Host -/

/-- Everything a Host instruction can do: wait, start the commanded reset, answer only, write the `EN` bit or write
the `PT` byte of its channel operand. -/
theorem exec_host_cases {i : Instr} (hh : i.isHost = true) (h : exec i s = .next t) :
    s.cfg.valid = true ∧
      ((s.rstp = true ∧ t = s) ∨
       (s.rstp = false ∧
        ((∃ d, i = .wrResetNz d ∧
            t = { s with rstp := true, rstc := s.cfg.resetDelayTicks, answer := some answerDone }) ∨
         (∃ a, t = s.withAnswer a) ∨
         (∃ k v, enableTarget? i = some k ∧ t = (s.setEn k v).withAnswer answerDone) ∨
         (∃ k v, pulseTarget? i = some k ∧ t = (s.setPt k v).withAnswer answerDone)))) := by
  have width : ∀ k us, (∃ a, storeWidth k us s = s.withAnswer a) ∨
      (∃ v, storeWidth k us s = (s.setPt k v).withAnswer answerDone) := by
    intro k us
    rcases storeWidth_cases k us s with ⟨-, h⟩ | ⟨p, -, h⟩
    · exact .inl ⟨_, h⟩
    · exact .inr ⟨_, h⟩
  have angle : ∀ k d, (∃ a, storeAngle k d s = s.withAnswer a) ∨
      (∃ v, storeAngle k d s = (s.setPt k v).withAnswer answerDone) := by
    intro k d
    rcases storeAngle_cases k d s with ⟨-, h⟩ | ⟨-, h⟩
    · exact .inl ⟨_, h⟩
    · rw [h]; exact width _ _
  have index : ∀ (idx : Byte) (v : Option Half) (body : State → State),
      indexed idx v s body = body s ∨ ∃ a, indexed idx v s body = s.withAnswer a := by
    intro idx v body
    unfold indexed; split
    · exact .inl rfl
    · exact .inr ⟨_, rfl⟩
  cases i <;> simp only [Instr.isHost, Bool.false_eq_true] at hh <;>
    (simp only [exec, execRdReset, execWrResetZ, execWrResetNz, execRdEnable, execWrEnable, execRdPosition,
      execWrPosition, execRdTicks, execWrTicks, execRdUndef, execWrUndef, execEnable, execDisable,
      execIsEnabled, execSetPos, execGetPos, execSetUs, execGetUs, execOpUndef7, execOpUndef8F] at h
     rw [hostStep_eq_next] at h
     obtain ⟨hv, h⟩ := h
     refine ⟨hv, ?_⟩
     rcases h with h | ⟨hr, rfl⟩
     · exact .inl h
     · refine .inr ⟨hr, ?_⟩
       first
        | exact .inr (.inl ⟨_, rfl⟩)
        | exact .inl ⟨_, rfl, rfl⟩
        | exact .inr (.inr (.inl ⟨_, _, rfl, rfl⟩))
        | exact .inr (.inr (.inr ⟨_, _, rfl, rfl⟩))
        | (rcases angle _ _ with ⟨a, h⟩ | ⟨v, h⟩
           · exact .inr (.inl ⟨a, h⟩)
           · exact .inr (.inr (.inr ⟨_, v, rfl, h⟩)))
        | (rcases index _ _ _ with h | ⟨a, h⟩
           · rw [h]
             first
              | exact .inr (.inl ⟨_, rfl⟩)
              | exact .inr (.inr (.inl ⟨_, _, rfl, rfl⟩))
              | (rcases angle _ _ with ⟨a, h⟩ | ⟨v, h⟩
                 · exact .inr (.inl ⟨a, h⟩)
                 · exact .inr (.inr (.inr ⟨_, v, rfl, h⟩)))
              | (rcases width _ _ with ⟨a, h⟩ | ⟨v, h⟩
                 · exact .inr (.inl ⟨a, h⟩)
                 · exact .inr (.inr (.inr ⟨_, v, rfl, h⟩)))
           · exact .inr (.inl ⟨a, h⟩)))

/-! ## The handler -/

/-- The row of the phase `SetPinLow` by the pulse (R128, R129). -/
theorem rowOf_setPinLow {pt : Byte} :
    rowOf .setPinLow pt = if 192 ≤ pt.toNat then .setPinLowLong else .setPinLowShort := by
  simp only [rowOf, pulseIsLong_iff]

/-- With `MF = 1` the handler has a step, which clears `MF` and writes nothing outside its state. -/
theorem isr_of_flag (hv : s.cfg.valid = true) (hm : s.mf = true) :
    ∃ t, isr s = .next t ∧ t.mf = false ∧ HandlerFrame s t := by
  unfold isr
  have he : s.rowEnabled s.row = true := rowEnabled_eq_true.mpr ⟨hm, rfl⟩
  cases hr : s.row with
  | setPinHigh =>
    exact ⟨_, exec_isrSetPinHigh hv (hr ▸ he), by simp,
      (((handlerFrame_enter s).trans (handlerFrame_advance _)).trans (handlerFrame_drivePin _ _)).trans
        (handlerFrame_program _ _ _ _)⟩
  | waitPreRoll =>
    exact ⟨_, exec_isrWaitPreRoll hv (hr ▸ he), by simp,
      (handlerFrame_enter s).trans (handlerFrame_program _ _ _ _)⟩
  | setPinLowShort =>
    exact ⟨_, exec_isrSetPinLowShort hv (hr ▸ he), by simp,
      ((handlerFrame_enter s).trans (handlerFrame_drivePin _ _)).trans (handlerFrame_program _ _ _ _)⟩
  | setPinLowLong =>
    exact ⟨_, exec_isrSetPinLowLong hv (hr ▸ he), by simp,
      ((handlerFrame_enter s).trans (handlerFrame_drivePin _ _)).trans (handlerFrame_program _ _ _ _)⟩
  | waitFrameEnd =>
    exact ⟨_, exec_isrWaitFrameEnd hv (hr ▸ he), by simp,
      (handlerFrame_enter s).trans (handlerFrame_program _ _ _ _)⟩

/-- Everything a row executed as an instruction can do: nothing where it is not enabled, or the handler's step. -/
theorem exec_row_cases {i : Instr} {r : Row} (hr : i.row? = some r) (h : exec i s = .next t) :
    s.cfg.valid = true ∧ i = r.instr ∧
      ((s.rowEnabled r = false ∧ t = s) ∨ (s.rowEnabled r = true ∧ s.row = r ∧ isr s = .next t)) := by
  have key : s.cfg.valid = true ∧ i = r.instr ∧
      ((s.rowEnabled r = false ∧ t = s) ∨ s.rowEnabled r = true) := by
    cases i <;> simp only [Instr.row?, Option.some.injEq, reduceCtorEq] at hr <;> subst hr <;>
      (simp only [exec, execIsrSetPinHigh, execIsrWaitPreRoll, execIsrSetPinLowShort, execIsrSetPinLowLong,
        execIsrWaitFrameEnd, handlerStep_eq_next] at h
       refine ⟨h.1, rfl, ?_⟩
       rcases h.2 with h | h
       · exact .inl h
       · exact .inr h.1)
  refine ⟨key.1, key.2.1, ?_⟩
  rcases key.2.2 with h1 | h1
  · exact .inl h1
  · have hrow := (rowEnabled_eq_true.mp h1).2
    refine .inr ⟨h1, hrow, ?_⟩
    unfold isr; rw [hrow, ← key.2.1]; exact h

/-! ## The timer -/

/-- Everything a tick can do: count, count towards a pending reset, or reset (R111, R120). -/
theorem exec_tick_cases (h : exec .tick s = .next t) :
    s.cfg.valid = true ∧
      ((s.rstp = false ∧ t = s.count) ∨
       (s.rstp = true ∧ s.rstc ≠ 1 ∧ t = { s with rstc := s.rstc - 1 }.count) ∨
       (s.rstp = true ∧ s.rstc = 1 ∧ t = s.resetNow)) := by
  simp only [exec, execTick, onInstance_eq_next] at h
  refine ⟨h.1, ?_⟩
  obtain ⟨hv, rfl⟩ := h
  cases hr : s.rstp
  · simp
  · by_cases hc : s.rstc = 1 <;> simp [State.tickPending, hc, ← hr]

/-- Everything a power-on reset can do. -/
theorem exec_por_cases (h : exec .por s = .next t) : s.cfg.valid = true ∧ t = s.resetNow := by
  simp only [exec, execPor, onInstance_eq_next] at h
  exact h

/-! ## Frames -/

/-- A register reads by what its class says; two states that agree there read alike. -/
theorem regByte_congr (a : Byte) (hc : t.cfg = s.cfg)
    (he : ∀ k, classify s.cfg a = .enable k → (t.chan k).en = (s.chan k).en)
    (hp : ∀ k, classify s.cfg a = .position k →
      positionByte s.cfg.tickUs (t.chan k) = positionByte s.cfg.tickUs (s.chan k))
    (ht : ∀ k, classify s.cfg a = .ticks k → (t.chan k).pt = (s.chan k).pt) : t.regByte a = s.regByte a := by
  unfold State.regByte
  rw [hc]
  cases hcl : classify s.cfg a with
  | reset => rfl
  | undef => rfl
  | enable k => simp [enableByte, he k hcl]
  | position k => simp [hp k hcl]
  | ticks k => simp [ht k hcl]

theorem onlyAnswered_refl (s : State) : onlyAnswered s s := ⟨rfl, fun _ => rfl⟩

theorem onlyAnswered_withAnswer (s : State) (a : Answer) : onlyAnswered s (s.withAnswer a) :=
  ⟨rfl, fun _ => rfl⟩

theorem onlyAnswered_raise (s : State) (x : Status) (i : Nat) (b : Option Byte) (v : Option Half) :
    onlyAnswered s (s.raise x i b v) :=
  ⟨rfl, fun _ => rfl⟩

theorem wroteEnable_setEn (k : Nat) (v : Bool) (a : Answer) (h : k < s.table.length) :
    wroteEnable k v s ((s.setEn k v).withAnswer a) := by
  have hc : ∀ j, ((s.setEn k v).withAnswer a).chan j = if j = k then { s.chan k with en := v } else s.chan j := by
    intro j; rw [withAnswer_chan, setEn_chan s v h]
  refine ⟨rfl, by simp, hc, fun b hb =>
    regByte_congr (s := s) (t := (s.setEn k v).withAnswer a) b rfl ?_ ?_ ?_⟩
  · intro j hj
    rw [hc, if_neg]
    rintro rfl; exact hb hj
  · intro j hj
    rw [hc]
    split
    · subst_vars; rfl
    · rfl
  · intro j hj
    rw [hc]
    split
    · subst_vars; rfl
    · rfl

theorem wrotePulse_setPt (k : Nat) (v : Byte) (a : Answer) (h : k < s.table.length) :
    wrotePulse k v.toNat s ((s.setPt k v).withAnswer a) := by
  have hc : ∀ j, ((s.setPt k v).withAnswer a).chan j = if j = k then { s.chan k with pt := v } else s.chan j := by
    intro j; rw [withAnswer_chan, setPt_chan s v h]
  refine ⟨rfl, by simp, by rw [hc]; simp, fun j => by rw [hc, hc]; simp, fun b hb hb' =>
    regByte_congr (s := s) (t := (s.setPt k v).withAnswer a) b rfl ?_ ?_ ?_⟩
  · intro j hj
    rw [hc]
    split
    · subst_vars; rfl
    · rfl
  · intro j hj
    rw [hc, if_neg]
    rintro rfl; exact hb' hj
  · intro j hj
    rw [hc, if_neg]
    rintro rfl; exact hb hj

theorem onlyHandled_of_frame (h : HandlerFrame s t) : onlyHandled s t := by
  have hr := h.rest
  have hc : t.cfg = s.cfg := by have h1 := congrArg State.cfg hr; exact h1
  have ht : t.table = s.table := by have h1 := congrArg State.table hr; exact h1
  have hk : ∀ k, t.chan k = s.chan k := fun k => by simp only [State.chan, hc, ht]
  exact ⟨hr, h.pins_length, fun a => regByte_congr a hc (fun k _ => by rw [hk]) (fun k _ => by rw [hk])
    (fun k _ => by rw [hk])⟩

end Sys2Proof.Machine
end

