-- ==== Sys2Proof/Laws/PerInstr.lean ====
section
/-! SUPPORT. Per-instruction families: one lemma for every instruction. -/

namespace Sys2Proof.Laws.EncodesOnItsPort

/-- The word of an instruction stands on the port of the agent it belongs to: a REG or OP word exactly for a Host
instruction, a PH word exactly for a row, with the code of the row's phase (spec/30_encoding.md R70, R80). -/
def Statement (i : Instr) : Prop :=
  ∀ p : Params,
    ((∃ w : HostWord, encode p i = w.toPort) ↔ i.isHost = true) ∧
    (∀ w, encode p i = .ph w ↔ ∃ r, i.row? = some r ∧ w = r.phase.code)

theorem rdReset (data : Byte) : Statement (.rdReset data) := fun _ =>
  ⟨⟨fun _ => rfl, fun _ => ⟨.reg _, rfl⟩⟩, fun _ => ⟨(fun h => nomatch h), fun ⟨_, h, _⟩ => nomatch h⟩⟩

theorem wrResetZ : Statement .wrResetZ := fun _ =>
  ⟨⟨fun _ => rfl, fun _ => ⟨.reg _, rfl⟩⟩, fun _ => ⟨(fun h => nomatch h), fun ⟨_, h, _⟩ => nomatch h⟩⟩

theorem wrResetNz (data : Byte) : Statement (.wrResetNz data) := fun _ =>
  ⟨⟨fun _ => rfl, fun _ => ⟨.reg _, rfl⟩⟩, fun _ => ⟨(fun h => nomatch h), fun ⟨_, h, _⟩ => nomatch h⟩⟩

theorem rdEnable (k : BitVec 4) (data : Byte) : Statement (.rdEnable k data) := fun _ =>
  ⟨⟨fun _ => rfl, fun _ => ⟨.reg _, rfl⟩⟩, fun _ => ⟨(fun h => nomatch h), fun ⟨_, h, _⟩ => nomatch h⟩⟩

theorem wrEnable (k : BitVec 4) (data : Byte) : Statement (.wrEnable k data) := fun _ =>
  ⟨⟨fun _ => rfl, fun _ => ⟨.reg _, rfl⟩⟩, fun _ => ⟨(fun h => nomatch h), fun ⟨_, h, _⟩ => nomatch h⟩⟩

theorem rdPosition (k : BitVec 4) (data : Byte) : Statement (.rdPosition k data) := fun _ =>
  ⟨⟨fun _ => rfl, fun _ => ⟨.reg _, rfl⟩⟩, fun _ => ⟨(fun h => nomatch h), fun ⟨_, h, _⟩ => nomatch h⟩⟩

theorem wrPosition (k : BitVec 4) (data : Byte) : Statement (.wrPosition k data) := fun _ =>
  ⟨⟨fun _ => rfl, fun _ => ⟨.reg _, rfl⟩⟩, fun _ => ⟨(fun h => nomatch h), fun ⟨_, h, _⟩ => nomatch h⟩⟩

theorem rdTicks (k : BitVec 4) (data : Byte) : Statement (.rdTicks k data) := fun _ =>
  ⟨⟨fun _ => rfl, fun _ => ⟨.reg _, rfl⟩⟩, fun _ => ⟨(fun h => nomatch h), fun ⟨_, h, _⟩ => nomatch h⟩⟩

theorem wrTicks (k : BitVec 4) (data : Byte) : Statement (.wrTicks k data) := fun _ =>
  ⟨⟨fun _ => rfl, fun _ => ⟨.reg _, rfl⟩⟩, fun _ => ⟨(fun h => nomatch h), fun ⟨_, h, _⟩ => nomatch h⟩⟩

theorem rdUndef (addr : Byte) (data : Byte) : Statement (.rdUndef addr data) := fun _ =>
  ⟨⟨fun _ => rfl, fun _ => ⟨.reg _, rfl⟩⟩, fun _ => ⟨(fun h => nomatch h), fun ⟨_, h, _⟩ => nomatch h⟩⟩

theorem wrUndef (addr : Byte) (data : Byte) : Statement (.wrUndef addr data) := fun _ =>
  ⟨⟨fun _ => rfl, fun _ => ⟨.reg _, rfl⟩⟩, fun _ => ⟨(fun h => nomatch h), fun ⟨_, h, _⟩ => nomatch h⟩⟩

theorem enable (idx : Byte) (arg : Half) : Statement (.enable idx arg) := fun _ =>
  ⟨⟨fun _ => rfl, fun _ => ⟨.op _, rfl⟩⟩, fun _ => ⟨(fun h => nomatch h), fun ⟨_, h, _⟩ => nomatch h⟩⟩

theorem disable (idx : Byte) (arg : Half) : Statement (.disable idx arg) := fun _ =>
  ⟨⟨fun _ => rfl, fun _ => ⟨.op _, rfl⟩⟩, fun _ => ⟨(fun h => nomatch h), fun ⟨_, h, _⟩ => nomatch h⟩⟩

theorem isEnabled (idx : Byte) (arg : Half) : Statement (.isEnabled idx arg) := fun _ =>
  ⟨⟨fun _ => rfl, fun _ => ⟨.op _, rfl⟩⟩, fun _ => ⟨(fun h => nomatch h), fun ⟨_, h, _⟩ => nomatch h⟩⟩

theorem setPos (idx : Byte) (arg : Half) : Statement (.setPos idx arg) := fun _ =>
  ⟨⟨fun _ => rfl, fun _ => ⟨.op _, rfl⟩⟩, fun _ => ⟨(fun h => nomatch h), fun ⟨_, h, _⟩ => nomatch h⟩⟩

theorem getPos (idx : Byte) (arg : Half) : Statement (.getPos idx arg) := fun _ =>
  ⟨⟨fun _ => rfl, fun _ => ⟨.op _, rfl⟩⟩, fun _ => ⟨(fun h => nomatch h), fun ⟨_, h, _⟩ => nomatch h⟩⟩

theorem setUs (idx : Byte) (arg : Half) : Statement (.setUs idx arg) := fun _ =>
  ⟨⟨fun _ => rfl, fun _ => ⟨.op _, rfl⟩⟩, fun _ => ⟨(fun h => nomatch h), fun ⟨_, h, _⟩ => nomatch h⟩⟩

theorem getUs (idx : Byte) (arg : Half) : Statement (.getUs idx arg) := fun _ =>
  ⟨⟨fun _ => rfl, fun _ => ⟨.op _, rfl⟩⟩, fun _ => ⟨(fun h => nomatch h), fun ⟨_, h, _⟩ => nomatch h⟩⟩

theorem opUndef7 (idx : Byte) (arg : Half) : Statement (.opUndef7 idx arg) := fun _ =>
  ⟨⟨fun _ => rfl, fun _ => ⟨.op _, rfl⟩⟩, fun _ => ⟨(fun h => nomatch h), fun ⟨_, h, _⟩ => nomatch h⟩⟩

theorem opUndef8F (low : BitVec 3) (idx : Byte) (arg : Half) : Statement (.opUndef8F low idx arg) := fun _ =>
  ⟨⟨fun _ => rfl, fun _ => ⟨.op _, rfl⟩⟩, fun _ => ⟨(fun h => nomatch h), fun ⟨_, h, _⟩ => nomatch h⟩⟩

theorem isrSetPinHigh : Statement .isrSetPinHigh := fun _ =>
  ⟨⟨(fun ⟨w, h⟩ => by cases w <;> cases h), (fun h => nomatch h)⟩,
    fun _ => ⟨fun h => ⟨_, rfl, by cases h; rfl⟩, fun ⟨_, h, hw⟩ => by cases h; rw [hw]; rfl⟩⟩

theorem isrWaitPreRoll : Statement .isrWaitPreRoll := fun _ =>
  ⟨⟨(fun ⟨w, h⟩ => by cases w <;> cases h), (fun h => nomatch h)⟩,
    fun _ => ⟨fun h => ⟨_, rfl, by cases h; rfl⟩, fun ⟨_, h, hw⟩ => by cases h; rw [hw]; rfl⟩⟩

theorem isrSetPinLowShort : Statement .isrSetPinLowShort := fun _ =>
  ⟨⟨(fun ⟨w, h⟩ => by cases w <;> cases h), (fun h => nomatch h)⟩,
    fun _ => ⟨fun h => ⟨_, rfl, by cases h; rfl⟩, fun ⟨_, h, hw⟩ => by cases h; rw [hw]; rfl⟩⟩

theorem isrSetPinLowLong : Statement .isrSetPinLowLong := fun _ =>
  ⟨⟨(fun ⟨w, h⟩ => by cases w <;> cases h), (fun h => nomatch h)⟩,
    fun _ => ⟨fun h => ⟨_, rfl, by cases h; rfl⟩, fun ⟨_, h, hw⟩ => by cases h; rw [hw]; rfl⟩⟩

theorem isrWaitFrameEnd : Statement .isrWaitFrameEnd := fun _ =>
  ⟨⟨(fun ⟨w, h⟩ => by cases w <;> cases h), (fun h => nomatch h)⟩,
    fun _ => ⟨fun h => ⟨_, rfl, by cases h; rfl⟩, fun ⟨_, h, hw⟩ => by cases h; rw [hw]; rfl⟩⟩

theorem tick : Statement .tick := fun _ =>
  ⟨⟨(fun ⟨w, h⟩ => by cases w <;> cases h), (fun h => nomatch h)⟩,
    fun _ => ⟨(fun h => nomatch h), fun ⟨_, h, _⟩ => nomatch h⟩⟩

theorem por : Statement .por := fun _ =>
  ⟨⟨(fun ⟨w, h⟩ => by cases w <;> cases h), (fun h => nomatch h)⟩,
    fun _ => ⟨(fun h => nomatch h), fun ⟨_, h, _⟩ => nomatch h⟩⟩

end Sys2Proof.Laws.EncodesOnItsPort
end

