-- ==== Sys2Proof/Laws/Script.lean ====
section
/-! SUPPORT. How the sequences of Sys2Proof/Machine/Script.lean unfold, one step at either end. -/

namespace Sys2Proof.Machine

variable {s t u : State}

@[simp] theorem andThen_next (s : State) (f : State → Result) : andThen (.next s) f = f s := rfl

/-- Doing one thing after another is associative. -/
theorem andThen_assoc (r : Result) (f g : State → Result) :
    andThen (andThen r f) g = andThen r fun s => andThen (f s) g := by
  cases r <;> rfl

/-- A sequence answers a next state exactly when both its parts do. -/
theorem andThen_eq_next {r : Result} {f : State → Result} :
    andThen r f = .next t ↔ ∃ u, r = .next u ∧ f u = .next t := by
  cases r <;> simp [andThen]

@[simp] theorem ticks_zero (s : State) : ticks 0 s = .next s := rfl
@[simp] theorem run_zero (s : State) : run 0 s = .next s := rfl

/-- The last tick of a sequence. -/
theorem ticks_succ (n : Nat) (s : State) : ticks (n + 1) s = andThen (ticks n s) (exec .tick) := rfl

/-- The last round of `run`. -/
theorem run_succ (n : Nat) (s : State) : run (n + 1) s = andThen (run n s) tickRound := rfl

/-- Ticks in two parts. -/
theorem ticks_add (m n : Nat) (s : State) : ticks (m + n) s = andThen (ticks m s) (ticks n) := by
  induction n with
  | zero => cases h : ticks m s <;> simp [andThen]
  | succ n ih => rw [← Nat.add_assoc, ticks_succ, ih, andThen_assoc]; rfl

/-- `run` in two parts. -/
theorem run_add (m n : Nat) (s : State) : run (m + n) s = andThen (run m s) (run n) := by
  induction n with
  | zero => cases h : run m s <;> simp [andThen]
  | succ n ih => rw [← Nat.add_assoc, run_succ, ih, andThen_assoc]; rfl

/-- A round of `run` whose tick leaves the flag clear is the tick. -/
theorem tickRound_of_clear (ht : exec .tick s = .next t) (hm : t.mf = false) : tickRound s = .next t := by
  simp [tickRound, ht, hm]

/-- A round of `run` whose tick leaves the flag set ends with the handler's step. -/
theorem tickRound_of_flag (ht : exec .tick s = .next t) (hm : t.mf = true) : tickRound s = isr t := by
  simp [tickRound, ht, hm]

/-- `next` with enough ticks is the handler's step after the first tick number `n` that leaves the flag set. -/
theorem nextWithin_of_ticks {n fuel : Nat} (hn : n ≤ fuel)
    (hclear : ∀ m < n, ∃ v, ticks m s = .next v ∧ v.mf = false)
    (hu : ticks n s = .next u) (hm : u.mf = true) : nextWithin fuel s = isr u := by
  induction n generalizing s fuel with
  | zero =>
    cases hu
    cases fuel <;> simp [nextWithin, hm]
  | succ n ih =>
    obtain ⟨fuel, rfl⟩ : ∃ f, fuel = f + 1 := ⟨fuel - 1, by omega⟩
    obtain ⟨v, hv, hs⟩ := hclear 0 (by omega)
    cases hv
    have front : ∀ m, ticks (m + 1) s = andThen (exec .tick s) (ticks m) := fun m => by
      rw [Nat.add_comm, ticks_add]; rfl
    rw [front] at hu
    obtain ⟨w, hw, hu⟩ := andThen_eq_next.mp hu
    have hclear' : ∀ m < n, ∃ v, ticks m w = .next v ∧ v.mf = false := fun m hmn => by
      obtain ⟨v, hv, hvm⟩ := hclear (m + 1) (by omega)
      rw [front, hw, andThen_next] at hv
      exact ⟨v, hv, hvm⟩
    simp only [nextWithin, hs, hw, andThen_next]
    exact ih (by omega) hclear' hu

end Sys2Proof.Machine
end

