-- ==== Sys2Proof/Tests/Slice0.lean ====
section
/-! SUPPORT. Tests. Expected values are those of spec/95_test_vectors.md (named per test) or of the encoding
tables of spec/30_encoding.md. Each runs one step. At the end, for every statement with hypotheses, a theorem
`witness_<Name>`: a concrete state and operands that meet them. -/

namespace Sys2Proof.Tests

open Sys2Proof Sys2Proof.Machine

/-! ## Small states -/

/-- The reference parameters with the OPEN ones of spec/95_test_vectors.md (`t = 2`). -/
def demoParams : Params := Params.reference 2 100 400

/-- The reference instance right after reset. -/
def demo : State := State.resetIn demoParams Env.quiet

/-- A channel of the reference instance. -/
def demoChannel (en : Bool) (pt : Byte) : Channel := { en := en, pt := pt, minUs := 544#16, maxUs := 2400#16 }

/-- The handler is about to run the row of `ph`, channel 1 is current and enabled with pulse `pt`, pins 1 and 3
are high. -/
def demoRow (ph : Phase) (pt : Byte) : State :=
  { demo with
    table := [demoChannel false 128#8, demoChannel true pt, demoChannel true 7#8, demoChannel false 200#8]
    pins := [false, true, false, true]
    ph := ph, cur := 1, cnt := 50#8, cmp := 50#8, mf := true }

/-- The state a step answers, if it answers one. -/
def got (r : Result) : Option State :=
  match r with
  | .next t => some t
  | .fault _ => none
  | .refused _ => none

/-- What one word on its port does. -/
def feed (w : PortWord) (s : State) : Option State := got (exec (s.decoded w) s)

/-- The answer one word gets. -/
def reply (w : PortWord) (s : State) : Option Answer := (feed w s).bind (·.answer)

/-- The pulses one word leaves. -/
def pulses (w : PortWord) (s : State) : Option (List Nat) := (feed w s).map fun t => t.table.map (·.pt.toNat)

/-- The enable bits one word leaves. -/
def enables (w : PortWord) (s : State) : Option (List Bool) := (feed w s).map fun t => t.table.map (·.en)

/-- What the handler's next row leaves: `CUR`, `PIN`, `CMP`, `CNT`, `MF` and `PH`. -/
def handled (i : Instr) (s : State) : Option (Nat × List Bool × Nat × Nat × Bool × Phase) :=
  (got (exec i s)).map fun t => (t.cur, t.pins, t.cmp.toNat, t.cnt.toNat, t.mf, t.ph)

/-- What a tick leaves: `CNT`, `MF`, `RSTP` and `RSTC`. -/
def ticked (s : State) : Option (Nat × Bool × Bool × Nat) :=
  (got (exec .tick s)).map fun t => (t.cnt.toNat, t.mf, t.rstp, t.rstc)

/-! ## Well-formedness: one ill-formed term for each check -/

theorem test_ill_wrResetNz_zero : (Instr.wrResetNz 0#8).wellFormed demoParams 128#8 = false := by decide
theorem test_ill_rdEnable_channel : (Instr.rdEnable 4#4 0#8).wellFormed demoParams 128#8 = false := by decide
theorem test_ill_wrEnable_channel : (Instr.wrEnable 4#4 1#8).wellFormed demoParams 128#8 = false := by decide
theorem test_ill_rdPosition_channel : (Instr.rdPosition 4#4 0#8).wellFormed demoParams 128#8 = false := by decide
theorem test_ill_wrPosition_channel : (Instr.wrPosition 4#4 1#8).wellFormed demoParams 128#8 = false := by decide
theorem test_ill_rdTicks_channel : (Instr.rdTicks 4#4 0#8).wellFormed demoParams 128#8 = false := by decide
theorem test_ill_wrTicks_channel : (Instr.wrTicks 15#4 1#8).wellFormed demoParams 128#8 = false := by decide
theorem test_ill_rdUndef_defined : (Instr.rdUndef 0x00#8 0#8).wellFormed demoParams 128#8 = false := by decide
theorem test_ill_wrUndef_defined : (Instr.wrUndef 0x33#8 0#8).wellFormed demoParams 128#8 = false := by decide
theorem test_ill_short_of_192 : Instr.isrSetPinLowShort.wellFormed demoParams 192#8 = false := by decide
theorem test_ill_long_of_191 : Instr.isrSetPinLowLong.wellFormed demoParams 191#8 = false := by decide

/-! ## Parameters: one illegal set for each constraint of R6 and R7 -/

theorem test_reference_is_legal : demoParams.valid = true := by decide
theorem test_illegal_n :
    { demoParams with n := 0 }.valid = false ∧ { demoParams with n := 17 }.valid = false := by decide
theorem test_illegal_tick :
    { demoParams with tickUs := 0 }.valid = false ∧ { demoParams with tickUs := 206 }.valid = false := by decide
theorem test_illegal_range : { demoParams with rangeMaxUs := 544#16 }.valid = false := by decide
theorem test_illegal_initChannel : { demoParams with initChannel := 4 }.valid = false := by decide
theorem test_illegal_resetDelay : { demoParams with resetDelayTicks := 0 }.valid = false := by decide
theorem test_illegal_map_overlap : { demoParams with basePosition := 0x13#8 }.valid = false := by decide
theorem test_illegal_map_reset : { demoParams with addrReset := 0x32#8 }.valid = false := by decide
theorem test_illegal_map_end : { demoParams with baseTicks := 0xFD#8 }.valid = false := by decide

/-! ## Decoding and encoding: a word written from the encoding tables for every instruction

REG words are `w addr data` (R71) with the addresses of R74; OP words are `op idx arg` (R72, R77). -/

theorem test_word_rdReset :
    decode demoParams 0#8 (.reg 0b0_00000000_00000000#17) = .rdReset 0#8 ∧
    encode demoParams (.rdReset 0#8) = .reg 0b0_00000000_00000000#17 := by decide
theorem test_word_wrResetZ :
    decode demoParams 0#8 (.reg 0b1_00000000_00000000#17) = .wrResetZ ∧
    encode demoParams .wrResetZ = .reg 0b1_00000000_00000000#17 := by decide
theorem test_word_wrResetNz :
    decode demoParams 0#8 (.reg 0b1_00000000_11111111#17) = .wrResetNz 255#8 ∧
    encode demoParams (.wrResetNz 255#8) = .reg 0b1_00000000_11111111#17 := by decide
theorem test_word_rdEnable :
    decode demoParams 0#8 (.reg 0b0_00010001_00000101#17) = .rdEnable 1#4 5#8 ∧
    encode demoParams (.rdEnable 1#4 5#8) = .reg 0b0_00010001_00000101#17 := by decide
theorem test_word_wrEnable :
    decode demoParams 0#8 (.reg 0b1_00010001_10000000#17) = .wrEnable 1#4 0x80#8 ∧
    encode demoParams (.wrEnable 1#4 0x80#8) = .reg 0b1_00010001_10000000#17 := by decide
theorem test_word_rdPosition :
    decode demoParams 0#8 (.reg 0b0_00100011_00000000#17) = .rdPosition 3#4 0#8 ∧
    encode demoParams (.rdPosition 3#4 0#8) = .reg 0b0_00100011_00000000#17 := by decide
theorem test_word_wrPosition :
    decode demoParams 0#8 (.reg 0b1_00100000_01011010#17) = .wrPosition 0#4 90#8 ∧
    encode demoParams (.wrPosition 0#4 90#8) = .reg 0b1_00100000_01011010#17 := by decide
theorem test_word_rdTicks :
    decode demoParams 0#8 (.reg 0b0_00110010_00000000#17) = .rdTicks 2#4 0#8 ∧
    encode demoParams (.rdTicks 2#4 0#8) = .reg 0b0_00110010_00000000#17 := by decide
theorem test_word_wrTicks :
    decode demoParams 0#8 (.reg 0b1_00110001_11001000#17) = .wrTicks 1#4 200#8 ∧
    encode demoParams (.wrTicks 1#4 200#8) = .reg 0b1_00110001_11001000#17 := by decide
theorem test_word_rdUndef :
    decode demoParams 0#8 (.reg 0b0_00010100_00000000#17) = .rdUndef 0x14#8 0#8 ∧
    encode demoParams (.rdUndef 0x14#8 0#8) = .reg 0b0_00010100_00000000#17 := by decide
theorem test_word_wrUndef :
    decode demoParams 0#8 (.reg 0b1_01000000_00000111#17) = .wrUndef 0x40#8 7#8 ∧
    encode demoParams (.wrUndef 0x40#8 7#8) = .reg 0b1_01000000_00000111#17 := by decide
theorem test_word_enable :
    decode demoParams 0#8 (.op 0b0000_00000001_1011111011101111#28) = .enable 1#8 0xBEEF#16 ∧
    encode demoParams (.enable 1#8 0xBEEF#16) = .op 0b0000_00000001_1011111011101111#28 := by decide
theorem test_word_disable :
    decode demoParams 0#8 (.op 0b0001_00000010_0000000000000000#28) = .disable 2#8 0#16 ∧
    encode demoParams (.disable 2#8 0#16) = .op 0b0001_00000010_0000000000000000#28 := by decide
theorem test_word_isEnabled :
    decode demoParams 0#8 (.op 0b0010_00000001_0000000000000000#28) = .isEnabled 1#8 0#16 ∧
    encode demoParams (.isEnabled 1#8 0#16) = .op 0b0010_00000001_0000000000000000#28 := by decide
theorem test_word_setPos :
    decode demoParams 0#8 (.op 0b0011_00000000_0000000001011010#28) = .setPos 0#8 90#16 ∧
    encode demoParams (.setPos 0#8 90#16) = .op 0b0011_00000000_0000000001011010#28 := by decide
theorem test_word_getPos :
    decode demoParams 0#8 (.op 0b0100_00000011_0000000000000000#28) = .getPos 3#8 0#16 ∧
    encode demoParams (.getPos 3#8 0#16) = .op 0b0100_00000011_0000000000000000#28 := by decide
theorem test_word_setUs :
    decode demoParams 0#8 (.op 0b0101_00000001_0000010111011100#28) = .setUs 1#8 1500#16 ∧
    encode demoParams (.setUs 1#8 1500#16) = .op 0b0101_00000001_0000010111011100#28 := by decide
theorem test_word_getUs :
    decode demoParams 0#8 (.op 0b0110_11111111_0000000000000000#28) = .getUs 255#8 0#16 ∧
    encode demoParams (.getUs 255#8 0#16) = .op 0b0110_11111111_0000000000000000#28 := by decide
theorem test_word_opUndef7 :
    decode demoParams 0#8 (.op 0b0111_11111111_0000000000000000#28) = .opUndef7 255#8 0#16 ∧
    encode demoParams (.opUndef7 255#8 0#16) = .op 0b0111_11111111_0000000000000000#28 := by decide
theorem test_word_opUndef8F :
    decode demoParams 0#8 (.op 0b1111_11001000_0000000000000000#28) = .opUndef8F 7#3 200#8 0#16 ∧
    encode demoParams (.opUndef8F 7#3 200#8 0#16) = .op 0b1111_11001000_0000000000000000#28 := by decide
theorem test_word_isrSetPinHigh :
    decode demoParams 0#8 (.ph 0b00#2) = .isrSetPinHigh ∧
    encode demoParams .isrSetPinHigh = .ph 0b00#2 := by decide
theorem test_word_isrWaitPreRoll :
    decode demoParams 0#8 (.ph 0b01#2) = .isrWaitPreRoll ∧
    encode demoParams .isrWaitPreRoll = .ph 0b01#2 := by decide
theorem test_word_isrSetPinLowShort :
    decode demoParams 191#8 (.ph 0b10#2) = .isrSetPinLowShort ∧
    encode demoParams .isrSetPinLowShort = .ph 0b10#2 := by decide
theorem test_word_isrSetPinLowLong :
    decode demoParams 192#8 (.ph 0b10#2) = .isrSetPinLowLong ∧
    encode demoParams .isrSetPinLowLong = .ph 0b10#2 := by decide
theorem test_word_isrWaitFrameEnd :
    decode demoParams 0#8 (.ph 0b11#2) = .isrWaitFrameEnd ∧
    encode demoParams .isrWaitFrameEnd = .ph 0b11#2 := by decide
theorem test_word_tick :
    decode demoParams 0#8 (.ev 0#1) = .tick ∧ encode demoParams .tick = .ev 0#1 := by decide
theorem test_word_por :
    decode demoParams 0#8 (.ev 1#1) = .por ∧ encode demoParams .por = .ev 1#1 := by decide

/-- V-R23, V-R24: the end of a range follows `N`. -/
theorem test_range_follows_n :
    decode { demoParams with n := 2 } 0#8 (.reg 0x01300#17) = .rdUndef 0x13#8 0#8 ∧
    decode { demoParams with n := 16 } 0#8 (.reg 0x01F00#17) = .rdEnable 15#4 0#8 := by decide

/-- Words as the host hands them over, in whole bytes; a number with a bit above the format is none. -/
theorem test_table_words :
    decodeTableWord 24 0x1205A = some (.wrPosition 0#4 90#8) ∧
    decodeTableWord 32 0x50105DC = some (.setUs 1#8 1500#16) ∧
    decodeTableWord 8 0x3 = some .isrWaitFrameEnd ∧ decodeTableWord 1 0x1 = some .por ∧
    decodeTableWord 24 0x20000 = none ∧ decodeTableWord 16 0x0 = none := by decide

/-- The first step after reset runs the word presented: `wr 0x20, 90` stores 120. -/
theorem test_first_step :
    (got (step (State.reset.withFetchWord 24 0x1205A))).map (fun t => (t.chan 0).pt) = some 120#8 := by decide

/-! ## Conversions -/

/-- V-C1. -/
theorem test_usToTicks :
    [0, 511, 512, 519, 520, 543, 544, 1500, 2040, 2047, 2048, 2400, 2407, 2408, 2552, 2559, 2560, 65535].map
      (usToTicks 8) =
    [none, none, some 0#8, some 0#8, some 1#8, some 3#8, some 4#8, some 123#8, some 191#8, some 191#8,
      some 192#8, some 236#8, some 236#8, some 237#8, some 255#8, some 255#8, none, none] := by decide

/-- V-C2. -/
theorem test_ticksToUs :
    [0#8, 4#8, 123#8, 128#8, 191#8, 192#8, 236#8, 255#8].map (ticksToUs 8) =
      [512, 544, 1496, 1536, 2040, 2048, 2400, 2552] := by decide

/-- V-C3. -/
theorem test_degToUs :
    [0, 1, 2, 3, 45, 90, 91, 135, 145, 146, 179, 180].map (degToUs (demoChannel false 0#8)) =
      [544, 554, 564, 574, 1008, 1472, 1482, 1936, 2039, 2049, 2389, 2400] := by decide

/-- V-C4. -/
theorem test_usToDeg :
    [512, 544, 552, 568, 1472, 1496, 1536, 2032, 2040, 2048, 2384, 2400, 2408, 2552].map
      (usToDeg (demoChannel false 0#8)) =
      [0, 0, 1, 2, 90, 92, 96, 144, 145, 146, 178, 180, 181, 195] := by decide

/-! ## Register transactions -/

/-- V-R1. -/
theorem test_rdReset : (reply (.reg 0x00000#17) demo).bind (·.rdata) = some 0xFF#8 := by decide
/-- V-R2. -/
theorem test_wrResetZ : feed (.reg 0x10000#17) demo = some { demo with answer := some answerDone } := by decide
/-- V-R3, V-R4. -/
theorem test_wrResetNz :
    (feed (.reg 0x100FF#17) demo).map (fun t => (t.rstp, t.rstc, t.cnt)) = some (true, 100, 0#8) := by decide
/-- V-R8. -/
theorem test_rdEnable :
    (reply (.reg 0x01100#17) (demoRow .waitPreRoll 0#8)).bind (·.rdata) = some 0x01#8 := by decide
/-- V-R7. -/
theorem test_wrEnable_nonzero : enables (.reg 0x11180#17) demo = some [false, true, false, false] := by decide
/-- V-R9. -/
theorem test_wrEnable_zero :
    enables (.reg 0x11100#17) (demoRow .waitPreRoll 0#8) = some [false, false, true, false] := by decide
/-- V-R10. -/
theorem test_rdPosition : (reply (.reg 0x02000#17) demo).bind (·.rdata) = some 0x60#8 := by decide
/-- V-R25: 793 degrees saturate. -/
theorem test_rdPosition_saturates :
    (positionByte 8 { demoChannel false 255#8 with maxUs := 1000#16 },
      positionHalf 8 { demoChannel false 255#8 with maxUs := 1000#16 }) = (0xFF#8, 793#16) := by decide
/-- V-R11. -/
theorem test_wrPosition : pulses (.reg 0x1205A#17) demo = some [120, 128, 128, 128] := by decide
/-- V-R13. -/
theorem test_wrPosition_181 : (reply (.reg 0x121B5#17) demo).map (·.status) = some .invalidValue := by decide
/-- V-R15. -/
theorem test_rdTicks : (reply (.reg 0x03000#17) demo).bind (·.rdata) = some 0x80#8 := by decide
/-- V-R16. -/
theorem test_wrTicks : pulses (.reg 0x131C8#17) demo = some [128, 200, 128, 128] := by decide
/-- V-R20. -/
theorem test_rdUndef :
    (reply (.reg 0x01400#17) demo).map (fun a => (a.status.code, a.rdata)) = some (3#2, some 0xFF#8) := by decide
/-- V-R21. -/
theorem test_wrUndef : (feed (.reg 0x11401#17) demo).map (fun t => { t with answer := none }) = some demo := by
  decide

/-! ## Channel Table operations -/

/-- V-O24. -/
theorem test_enable : enables (.op 0x001BEEF#28) demo = some [false, true, false, false] := by decide
/-- V-O19. -/
theorem test_enable_4 : (reply (.op 0x0040000#28) demo).map (·.status.code) = some 1#2 := by decide
/-- V-O3. -/
theorem test_disable :
    enables (.op 0x1020000#28) (demoRow .waitPreRoll 0#8) = some [false, true, false, false] := by decide
/-- V-O5. -/
theorem test_isEnabled :
    (reply (.op 0x2020000#28) (demoRow .waitPreRoll 0#8)).bind (·.result) = some 1#16 := by decide
/-- V-O7. -/
theorem test_setPos : pulses (.op 0x30000B4#28) demo = some [236, 128, 128, 128] := by decide
/-- V-O21: the index before the value. -/
theorem test_setPos_order : (reply (.op 0x30900C8#28) demo).map (·.status.code) = some 1#2 := by decide
/-- V-O16. -/
theorem test_getPos : (reply (.op 0x4000000#28) demo).bind (·.result) = some 96#16 := by decide
/-- V-O13. -/
theorem test_setUs : pulses (.op 0x50109FF#28) demo = some [128, 255, 128, 128] := by decide
/-- V-O14. -/
theorem test_setUs_2560 :
    (feed (.op 0x5010A00#28) demo).map (fun t => (t.table, t.answer.map (·.status.code))) =
      some (demo.table, some 2#2) := by decide
/-- V-O15. -/
theorem test_getUs : (reply (.op 0x6000000#28) demo).bind (·.result) = some 1536#16 := by decide
/-- V-O20. -/
theorem test_getUs_255 :
    (reply (.op 0x6FF0000#28) demo).map (fun a => (a.status.code, a.result)) = some (1#2, some 0#16) := by decide
/-- V-E2: the opcode before the index. -/
theorem test_opUndef7 :
    (reply (.op 0x7FF0000#28) demo).map (fun a => (a.status.code, a.result)) = some (3#2, some 0#16) := by decide
/-- V-O23. -/
theorem test_opUndef8F :
    (reply (.op 0xFC80000#28) demo).map (fun a => (a.status.code, a.info)) = some (3#2, some 15) := by decide

/-! ## The rows of the handler -/

/-- V-D1, first row, from `CUR = 0` (here the pins start low). -/
theorem test_isrSetPinHigh :
    handled .isrSetPinHigh
      { demoRow .setPinHigh 128#8 with cur := 0, pins := [false, false, false, false] } =
      some (1, [false, true, false, false], 62, 0, false, .waitPreRoll) := by decide
/-- V-D2: `CUR` wraps; channel 0 is disabled here and no pin is written. -/
theorem test_isrSetPinHigh_wraps :
    handled .isrSetPinHigh { demoRow .setPinHigh 128#8 with cur := 3 } =
      some (0, [false, true, false, true], 62, 0, false, .waitPreRoll) := by decide
/-- V-D1, second row. -/
theorem test_isrWaitPreRoll :
    handled .isrWaitPreRoll (demoRow .waitPreRoll 128#8) =
      some (1, [false, true, false, true], 128, 0, false, .setPinLow) := by decide
/-- S8-5: the zero pulse. -/
theorem test_isrWaitPreRoll_zero :
    handled .isrWaitPreRoll (demoRow .waitPreRoll 0#8) =
      some (1, [false, true, false, true], 0, 255, false, .setPinLow) := by decide
/-- V-D1, third row. -/
theorem test_isrSetPinLowShort :
    handled .isrSetPinLowShort (demoRow .setPinLow 128#8) =
      some (1, [false, false, false, true], 63, 0, false, .waitFrameEnd) := by decide
/-- V-D4: 191 is still short. -/
theorem test_isrSetPinLowShort_191 :
    handled .isrSetPinLowShort (demoRow .setPinLow 191#8) =
      some (1, [false, false, false, true], 0, 0, false, .waitFrameEnd) := by decide
/-- V-D5: the compare value 256 is kept as 0. -/
theorem test_isrSetPinLowLong_192 :
    handled .isrSetPinLowLong (demoRow .setPinLow 192#8) =
      some (1, [false, false, false, true], 0, 0, false, .setPinHigh) := by decide
/-- V-D6. -/
theorem test_isrSetPinLowLong_255 :
    handled .isrSetPinLowLong (demoRow .setPinLow 255#8) =
      some (1, [false, false, false, true], 193, 0, false, .setPinHigh) := by decide
/-- V-D1, fourth row. -/
theorem test_isrWaitFrameEnd :
    handled .isrWaitFrameEnd (demoRow .waitFrameEnd 128#8) =
      some (1, [false, true, false, true], 255, 0, false, .setPinHigh) := by decide

/-! ## The events -/

/-- V-T1, V-T2, V-T3, V-T4, V-T6. -/
theorem test_tick :
    ticked { demo with cnt := 61#8, cmp := 62#8 } = some (62, true, false, 0) ∧
    ticked { demo with cnt := 62#8, cmp := 62#8 } = some (63, false, false, 0) ∧
    ticked { demo with cnt := 255#8, cmp := 0#8 } = some (0, true, false, 0) ∧
    ticked { demo with cnt := 255#8, cmp := 7#8 } = some (0, false, false, 0) ∧
    ticked { demo with cnt := 127#8, cmp := 128#8, mf := true } = some (128, true, false, 0) := by decide
/-- V-T7, V-T8. -/
theorem test_tick_reset :
    ticked { demo with rstp := true, rstc := 3, cnt := 9#8, cmp := 50#8 } = some (10, false, true, 2) ∧
    got (exec .tick { demoRow .setPinLow 9#8 with rstp := true, rstc := 1, cnt := 49#8 }) = some demo := by decide
/-- V-X1. -/
theorem test_por : got (exec .por (demoRow .setPinLow 9#8)) = some demo := by decide

/-! ## The surroundings -/

/-- The latency bound puts the handler before the next tick. -/
theorem test_handler_when_due :
    got (step { demoRow .waitFrameEnd 128#8 with env := { sched := [.timer], hostPort := [], late := 400 } }) =
      got (exec .isrWaitFrameEnd
        { demoRow .waitFrameEnd 128#8 with env := { sched := [.timer], hostPort := [], late := 0 } }) := by decide

/-- A word offered while a reset is pending waits at the port. -/
theorem test_host_waits :
    got (step { demo with rstp := true, rstc := 5, env := { sched := [.host], hostPort := [.reg 0#17], late := 0 } }) =
      some { demo with rstp := true, rstc := 5, env := { sched := [], hostPort := [.reg 0#17], late := 0 } } := by
  decide

/-! ## Witnesses: the hypotheses of the statements, met

Each `witness_<Name>` instantiates the hypotheses of `Obligations.<Name>`, each clause at a boundary value. -/

theorem demo_inv : demo.Inv :=
  ⟨by decide, by decide, by decide, by decide, by decide, by decide, by decide, by decide⟩

theorem demoRow_inv (ph : Phase) (pt : Byte) : (demoRow ph pt).Inv := by
  refine ⟨(by decide : demoParams.valid = true), rfl, rfl, (by decide : 1 < 4), ?_, fun _ => rfl, ?_,
    Nat.zero_le _⟩
  · intro c hc
    simp only [demoRow, List.mem_cons, List.not_mem_nil, or_false] at hc
    rcases hc with rfl | rfl | rfl | rfl <;> exact ⟨rfl, rfl⟩
  · intro h; exact absurd h (by decide : (false : Bool) ≠ true)

/-- A commanded reset with `n` ticks to go. -/
def demoPending (n : Nat) : State := { demoRow .setPinLow 9#8 with rstp := true, rstc := n }

theorem demoPending_inv (n : Nat) (h : 1 ≤ n) (h' : n ≤ 100) : (demoPending n).Inv :=
  ⟨(demoRow_inv .setPinLow 9#8).instance_valid, rfl, rfl, (demoRow_inv .setPinLow 9#8).cur_lt,
    (demoRow_inv .setPinLow 9#8).ranges, fun e => absurd e (by decide : (true : Bool) ≠ false),
    fun _ => ⟨h, h'⟩, Nat.zero_le _⟩

/-- Right after the `SetPinHigh` row of channel 1, enabled, with pulse `pt`. -/
def demoSlot (pt : Byte) : State := { demoRow .waitPreRoll pt with cnt := 0#8, cmp := 62#8, mf := false }

theorem demoSlot_inv (pt : Byte) : (demoSlot pt).Inv :=
  ⟨(demoRow_inv .waitPreRoll pt).instance_valid, rfl, rfl, (demoRow_inv .waitPreRoll pt).cur_lt,
    (demoRow_inv .waitPreRoll pt).ranges, fun _ => rfl, (demoRow_inv .waitPreRoll pt).pending_count,
    Nat.zero_le _⟩

theorem demoSlot_start (pt : Byte) : (demoSlot pt).slotStart := ⟨rfl, rfl, rfl, rfl⟩

/-- An instance whose range ends lie outside the tick range (V-C6). -/
def demoWide : State :=
  State.resetIn { demoParams with rangeMinUs := 400#16, rangeMaxUs := 2600#16 } Env.quiet

theorem demoWide_inv : demoWide.Inv :=
  ⟨by decide, by decide, by decide, by decide, by decide, by decide, by decide, by decide⟩

/-- With a turn, words at the host port and ticks of lateness announced. -/
def announcing (s : State) (sched : List Turn) (port : List HostWord) (late : Nat) : State :=
  { s with env := { sched := sched, hostPort := port, late := late } }

theorem witness_ResetStateIsSound :
    demoParams.valid = true ∧ (Env.mk [.host, .powerOn] [.op 0x0020000#28] 400).late ≤ demoParams.maxLatencyTicks := by
  decide
theorem witness_PowerOnResetWritesEveryResetValue :
    (demoPending 1).cfg.valid = true ∧ (demoPending 1).rstp = true ∧ (demoPending 1).rstc = 1 := by decide
theorem witness_EveryStepKeepsSoundness : demo.Inv ∧ ∃ t, step demo = .next t := ⟨demo_inv, _, rfl⟩
theorem witness_ReachedStatesKeepTheInvariantsOfR37 :
    (State.mk demoParams demo.table .setPinHigh 0 1#8 0#8 false demo.pins false 0 none Env.quiet).Reached :=
  ⟨demoParams, Env.quiet, 1, by decide, by decide, rfl⟩
theorem witness_DecodingAnEncodedInstructionGivesItBack :
    demoParams.valid = true ∧ (Instr.wrEnable 3#4 255#8).wellFormed demoParams 0#8 = true ∧
    (Instr.wrResetNz 1#8).wellFormed demoParams 0#8 = true ∧
    (Instr.rdUndef 0x34#8 0#8).wellFormed demoParams 0#8 = true ∧
    Instr.isrSetPinLowShort.wellFormed demoParams 191#8 = true ∧
    Instr.isrSetPinLowLong.wellFormed demoParams 192#8 = true := by decide
theorem witness_EncodingADecodedWordGivesItBack :
    demoParams.valid = true ∧ { demoParams with n := 16, initChannel := 15 }.valid = true := by decide
theorem witness_ReferenceMapIsTheHighNibble :
    { demoParams with n := 16 }.valid = true ∧ demoParams.addrReset = 0x00#8 ∧ demoParams.baseEnable = 0x10#8 ∧
    demoParams.basePosition = 0x20#8 ∧ demoParams.baseTicks = 0x30#8 := by decide
theorem witness_StepRunsTheDecodedInstruction :
    demo.cfg.valid = true ∧
    (announcing demo [.powerOn] [] 0).env.sched = .powerOn :: [] ∧
    ((announcing (demoRow .waitPreRoll 0#8) [.timer] [] 399).env.sched = .timer :: [] ∧
      (demoRow .waitPreRoll 0#8).mf = true ∧ 399 < demoParams.maxLatencyTicks) ∧
    ((announcing (demoRow .waitPreRoll 0#8) [.scheduler] [] 400).env.sched = .scheduler :: [] ∧
      (demoRow .waitPreRoll 0#8).mf = true) ∧
    ((announcing demo [.host] [.op 0x0020000#28] 0).env.sched = .host :: [] ∧ demo.rstp = false ∧
      (announcing demo [.host] [.op 0x0020000#28] 0).env.hostPort = .op 0x0020000#28 :: []) := by decide
theorem witness_TurnsWithoutAStepPass :
    ((announcing (demoPending 1) [.host] [.op 0x0020000#28] 0).env.sched = .host :: [] ∧ (demoPending 1).rstp = true) ∧
    ((announcing demo [.host] [] 0).env.sched = .host :: [] ∧ (announcing demo [.host] [] 0).env.hostPort = []) ∧
    ((announcing demo [.scheduler] [] 0).env.sched = .scheduler :: [] ∧ demo.mf = false) := by decide
theorem witness_LatencyBoundPutsTheHandlerFirst :
    (demoRow .waitPreRoll 0#8).cfg.valid = true ∧ (demoRow .waitPreRoll 0#8).mf = true ∧
    (announcing (demoRow .waitPreRoll 0#8) [.timer] [] 400).env.sched = .timer :: [] ∧
    demoParams.maxLatencyTicks ≤ (announcing (demoRow .waitPreRoll 0#8) [.timer] [] 400).env.late := by decide
theorem witness_FreeRunningIsTheZeroLatencySchedule :
    (demo.cfg.valid = true ∧ demo.env.sched = [] ∧ demo.mf = false) ∧
    ((demoRow .setPinLow 191#8).env.sched = [] ∧ (demoRow .setPinLow 191#8).mf = true) := by decide
theorem witness_IllegalParametersAreRefused :
    ¬ (1 ≤ 17 ∧ 17 ≤ 16 ∧ 1 ≤ demoParams.tickUs ∧ demoParams.tickUs ≤ 205 ∧
        demoParams.rangeMinUs.toNat < demoParams.rangeMaxUs.toNat ∧ demoParams.initChannel < 17 ∧
        1 ≤ demoParams.resetDelayTicks ∧ { demoParams with n := 17 }.mapValid = true) := by decide
theorem witness_RdEnableReturnsTheEnableBit : demo.Inv ∧ demo.rstp = false ∧ (3#4).toNat < demo.cfg.n :=
  ⟨demo_inv, rfl, by decide⟩
theorem witness_RdPositionReturnsSaturatedDegrees : demo.Inv ∧ demo.rstp = false ∧ (3#4).toNat < demo.cfg.n :=
  ⟨demo_inv, rfl, by decide⟩
theorem witness_RdTicksReturnsThePulse : demo.Inv ∧ demo.rstp = false ∧ (3#4).toNat < demo.cfg.n :=
  ⟨demo_inv, rfl, by decide⟩
theorem witness_RdUndefReturnsFFAndReports :
    demo.cfg.valid = true ∧ demo.rstp = false ∧ demo.cfg.outsideMap 0x14#8 = true := by decide
theorem witness_RegisterReadFollowsTheMap :
    demo.Inv ∧ demo.rstp = false ∧ (0x00#8 = demo.cfg.addrReset ∧ demo.cfg.outsideMap 0x34#8 = true) ∧
    (3 < demo.cfg.n ∧ (0x13#8).toNat = demo.cfg.baseEnable.toNat + 3 ∧
      (0x23#8).toNat = demo.cfg.basePosition.toNat + 3 ∧ (0x33#8).toNat = demo.cfg.baseTicks.toNat + 3) :=
  ⟨demo_inv, rfl, by decide, by decide⟩
theorem witness_ResetAddressReadAndZeroWriteDoNothing : demo.cfg.valid = true ∧ demo.rstp = false := by decide
theorem witness_WrResetNzStartsTheCommandedReset :
    demo.cfg.valid = true ∧ demo.rstp = false ∧ (1#8 ≠ 0#8 ∧ 255#8 ≠ 0#8) := by decide
theorem witness_WrEnableWritesTheEnableBit : demo.Inv ∧ demo.rstp = false ∧ (3#4).toNat < demo.cfg.n :=
  ⟨demo_inv, rfl, by decide⟩
/-- Angles 181 (too large), 0 and 180 of a wide range (400 and 2600 us), 0 and 180 of the reference range. -/
theorem witness_WrPositionSetsTheAngle :
    (demo.Inv ∧ demo.rstp = false ∧ (3#4).toNat < demo.cfg.n ∧ 180 < (181#8).toNat) ∧
    (demoWide.Inv ∧ demoWide.rstp = false ∧ (400 + 0 * 2200 / 180) / demoWide.cfg.tickUs < 64 ∧
      319 < (400 + 180 * 2200 / 180) / demoWide.cfg.tickUs ∧ (demoWide.chan 3).minUs.toNat = 400 ∧
      (demoWide.chan 3).maxUs.toNat = 2600) ∧
    (64 ≤ (544 + 0 * 1856 / 180) / demo.cfg.tickUs ∧ (544 + 180 * 1856 / 180) / demo.cfg.tickUs ≤ 319 ∧
      (demo.chan 3).minUs.toNat = 544 ∧ (demo.chan 3).maxUs.toNat = 2400) :=
  ⟨⟨demo_inv, rfl, by decide, by decide⟩, ⟨demoWide_inv, rfl, by decide⟩, by decide⟩
theorem witness_WrTicksStoresTheByte : demo.Inv ∧ demo.rstp = false ∧ (3#4).toNat < demo.cfg.n :=
  ⟨demo_inv, rfl, by decide⟩
theorem witness_WrUndefIsSilent :
    demo.cfg.valid = true ∧ demo.rstp = false ∧ demo.cfg.outsideMap 0x40#8 = true := by decide
theorem witness_OtherAccessWidthsAreRefused : (0 ≠ 1) ∧ (2 ≠ 1) := by decide
theorem witness_EnableAndDisableWriteTheBit : demo.Inv ∧ demo.rstp = false ∧ (3#8).toNat < demo.cfg.n :=
  ⟨demo_inv, rfl, by decide⟩
theorem witness_IsEnabledReturnsTheBit :
    demo.Inv ∧ demo.rstp = false ∧ (3#8).toNat < demo.cfg.n ∧ demo.cfg.n ≤ (4#8).toNat :=
  ⟨demo_inv, rfl, by decide, by decide⟩
/-- The clauses as in `witness_WrPositionSetsTheAngle`, with a 16-bit angle. -/
theorem witness_SetPosSetsTheAngle :
    (demo.Inv ∧ demo.rstp = false ∧ (3#8).toNat < demo.cfg.n ∧ 180 < (181#16).toNat) ∧
    (demoWide.Inv ∧ demoWide.rstp = false ∧ (400 + 0 * 2200 / 180) / demoWide.cfg.tickUs < 64 ∧
      319 < (400 + 180 * 2200 / 180) / demoWide.cfg.tickUs ∧ (demoWide.chan 3).minUs.toNat = 400 ∧
      (demoWide.chan 3).maxUs.toNat = 2600) ∧
    (64 ≤ (544 + 0 * 1856 / 180) / demo.cfg.tickUs ∧ (544 + 180 * 1856 / 180) / demo.cfg.tickUs ≤ 319 ∧
      (demo.chan 3).minUs.toNat = 544 ∧ (demo.chan 3).maxUs.toNat = 2400) :=
  ⟨⟨demo_inv, rfl, by decide, by decide⟩, ⟨demoWide_inv, rfl, by decide⟩, by decide⟩
theorem witness_SetUsSetsTheWidth :
    demo.Inv ∧ demo.rstp = false ∧ (3#8).toNat < demo.cfg.n ∧
    ((511#16).toNat / demo.cfg.tickUs < 64 ∧ 319 < (2560#16).toNat / demo.cfg.tickUs) ∧
    (64 ≤ (512#16).toNat / demo.cfg.tickUs ∧ (2559#16).toNat / demo.cfg.tickUs ≤ 319) :=
  ⟨demo_inv, rfl, by decide, by decide, by decide⟩
theorem witness_GetUsReturnsTheWidth : demo.Inv ∧ demo.rstp = false ∧ (3#8).toNat < demo.cfg.n :=
  ⟨demo_inv, rfl, by decide⟩
theorem witness_GetPosReturnsTheDegrees : demo.Inv ∧ demo.rstp = false ∧ (3#8).toNat < demo.cfg.n :=
  ⟨demo_inv, rfl, by decide⟩
theorem witness_UnassignedOpcodesReport : demo.cfg.valid = true ∧ demo.rstp = false := by decide
theorem witness_InvalidIndexChangesNothing :
    (demo.cfg.valid = true ∧ demo.rstp = false ∧ demo.cfg.n ≤ (4#8).toNat ∧ demo.cfg.n ≤ (255#8).toNat) ∧
    ∃ t a, exec (decodeReg demo.cfg 0x01400#17) demo = .next t ∧ t.answer = some a :=
  ⟨by decide, _, _, rfl, rfl⟩
theorem witness_SetPinHighRowStartsTheSlot :
    (demoRow .setPinHigh 128#8).Inv ∧ (demoRow .setPinHigh 128#8).mf = true ∧
    (demoRow .setPinHigh 128#8).ph = .setPinHigh :=
  ⟨demoRow_inv _ _, rfl, rfl⟩
theorem witness_WaitPreRollRowProgramsThePulse :
    (demoRow .waitPreRoll 0#8).Inv ∧ (demoRow .waitPreRoll 0#8).mf = true ∧
    (demoRow .waitPreRoll 0#8).ph = .waitPreRoll :=
  ⟨demoRow_inv _ _, rfl, rfl⟩
theorem witness_SetPinLowShortRowEndsThePulse :
    (demoRow .setPinLow 191#8).Inv ∧ (demoRow .setPinLow 191#8).mf = true ∧
    (demoRow .setPinLow 191#8).ph = .setPinLow ∧ 64 + ((demoRow .setPinLow 191#8).chan 1).pt.toNat ≤ 255 :=
  ⟨demoRow_inv _ _, rfl, rfl, by decide⟩
theorem witness_SetPinLowLongRowEndsThePulse :
    (demoRow .setPinLow 192#8).Inv ∧ (demoRow .setPinLow 192#8).mf = true ∧
    (demoRow .setPinLow 192#8).ph = .setPinLow ∧ 255 < 64 + ((demoRow .setPinLow 192#8).chan 1).pt.toNat :=
  ⟨demoRow_inv _ _, rfl, rfl, by decide⟩
theorem witness_WaitFrameEndRowWaitsTheSecondHalf :
    (demoRow .waitFrameEnd 128#8).Inv ∧ (demoRow .waitFrameEnd 128#8).mf = true ∧
    (demoRow .waitFrameEnd 128#8).ph = .waitFrameEnd :=
  ⟨demoRow_inv _ _, rfl, rfl⟩
theorem witness_NextStateFunction :
    ((demoRow .setPinLow 192#8).Inv ∧ (demoRow .setPinLow 192#8).mf = true) ∧
    (∃ t, exec (.enable 3#8 0#16) demo = .next t) ∧ (Instr.enable 3#8 0#16).row? = none ∧
    ¬ isReset (.enable 3#8 0#16) demo :=
  ⟨⟨demoRow_inv _ _, rfl⟩, ⟨_, rfl⟩, rfl, by simp [isReset]⟩
theorem witness_StepsThatAreNotEnabledChangeNothing :
    (demoPending 1).cfg.valid = true ∧
    ((Instr.enable 3#8 0#16).isHost = true ∧ (demoPending 1).rstp = true) ∧
    (Instr.isrSetPinHigh.row? = some .setPinHigh ∧ demo.mf = false) ∧
    (Instr.isrSetPinLowLong.row? = some .setPinLowLong ∧
      rowOf .setPinLow ((demoRow .setPinLow 191#8).chan 1).pt ≠ .setPinLowLong) := by decide
/-- A write of `PT[3]`, one of `EN[3]`, and a Host instruction that writes no record. -/
theorem witness_HostNeverTouchesTheScheduler :
    ((Instr.setUs 3#8 1500#16).isHost = true ∧ (∃ t, exec (.setUs 3#8 1500#16) demo = .next t) ∧
      enableTarget? (.setUs 3#8 1500#16) ≠ some 3 ∧ pulseTarget? (.setUs 3#8 1500#16) ≠ some 2) ∧
    ((Instr.wrEnable 3#4 1#8).isHost = true ∧ (∃ t, exec (.wrEnable 3#4 1#8) demo = .next t) ∧
      enableTarget? (.wrEnable 3#4 1#8) ≠ some 2 ∧ pulseTarget? (.wrEnable 3#4 1#8) ≠ some 3) ∧
    ((Instr.wrResetNz 1#8).isHost = true ∧ (∃ t, exec (.wrResetNz 1#8) demo = .next t) ∧
      enableTarget? (.wrResetNz 1#8) = none ∧ pulseTarget? (.wrResetNz 1#8) = none) ∧
    ((Instr.enable 4#8 0#16).isHost = true ∧ (∃ t, exec (.enable 4#8 0#16) demo = .next t) ∧
      ∀ d, Instr.enable 4#8 0#16 ≠ .wrResetNz d) :=
  ⟨⟨rfl, ⟨_, rfl⟩, by decide, by decide⟩, ⟨rfl, ⟨_, rfl⟩, by decide, by decide⟩, ⟨rfl, ⟨_, rfl⟩, rfl, rfl⟩,
    ⟨rfl, ⟨_, rfl⟩, fun _ h => nomatch h⟩⟩
theorem witness_HandlerNeverTouchesTheTable :
    Instr.isrSetPinLowShort.row? = some .setPinLowShort ∧
    ∃ t, exec .isrSetPinLowShort (demoRow .setPinLow 191#8) = .next t := ⟨rfl, _, rfl⟩
theorem witness_PinsChangeOnlyInTheirRows :
    (demoRow .setPinLow 191#8).Inv ∧
    ∃ t, exec .isrSetPinLowShort (demoRow .setPinLow 191#8) = .next t ∧ t.pin 1 ≠ (demoRow .setPinLow 191#8).pin 1 :=
  ⟨demoRow_inv _ _, _, rfl, by decide⟩
theorem witness_ADisabledChannelIsNeverDrivenHigh :
    demo.Inv ∧ (demo.chan 0).en = false ∧ demo.pin 0 = false ∧ ∃ t, step demo = .next t :=
  ⟨demo_inv, rfl, rfl, _, rfl⟩
/-- The other table differs in every field the row of its phase may not read. -/
theorem witness_RowsReadOnlyWhatR133Names :
    let other (en : Bool) (pt : Byte) (en2 : Bool) : List Channel :=
      [demoChannel true 0#8, demoChannel en pt, demoChannel en2 0#8, demoChannel true 0#8]
    let s (ph : Phase) (t : List Channel) : State := { demoRow ph 9#8 with table := t }
    ((demoRow .setPinHigh 9#8).Inv ∧ (demoRow .setPinHigh 9#8).mf = true ∧ (other false 8#8 true).length = 4) ∧
    ((s .setPinHigh (other false 8#8 true)).chan 2).en = ((demoRow .setPinHigh 9#8).chan 2).en ∧
    ((s .waitPreRoll (other false 9#8 false)).chan 1).pt = ((demoRow .waitPreRoll 9#8).chan 1).pt ∧
    (((s .setPinLow (other true 9#8 false)).chan 1).en = ((demoRow .setPinLow 9#8).chan 1).en ∧
      ((s .setPinLow (other true 9#8 false)).chan 1).pt = ((demoRow .setPinLow 9#8).chan 1).pt) :=
  ⟨⟨demoRow_inv _ _, rfl, rfl⟩, by decide, by decide, by decide⟩
theorem witness_TickCountsMatchesAndEndsTheDelay :
    (demo.Inv ∧ demo.rstp = false) ∧ ((demoPending 2).Inv ∧ (demoPending 2).rstp = true ∧ 1 < (demoPending 2).rstc) ∧
    ((demoPending 1).Inv ∧ (demoPending 1).rstp = true ∧ (demoPending 1).rstc = 1) :=
  ⟨⟨demo_inv, rfl⟩, ⟨demoPending_inv 2 (by decide) (by decide), rfl, by decide⟩,
    ⟨demoPending_inv 1 (by decide) (by decide), rfl, rfl⟩⟩
/-- A wait of 256 ticks with no reset pending, and a wait of one tick with two to go to a reset. -/
theorem witness_MatchComesAfterTheWait :
    (demo.cfg.valid = true ∧ demo.mf = false ∧ demo.rstp = false ∧
      waitTicks demo.cnt.toNat demo.cmp.toNat = 256 ∧ 255 < 256) ∧
    let s := { demoPending 2 with mf := false, cnt := 61#8, cmp := 62#8 }
    (s.cfg.valid = true ∧ s.mf = false ∧ s.rstp = true ∧ waitTicks s.cnt.toNat s.cmp.toNat = 1 ∧ 1 < s.rstc) := by
  decide
/-- At rest, with the match already there, and with a pending reset in the wait. -/
theorem witness_TheHandlerRunsAgainWithin256Ticks :
    (demo.Inv ∧ demo.rstp = false) ∧ ((demoRow .waitPreRoll 0#8).Inv ∧ (demoRow .waitPreRoll 0#8).mf = true) ∧
    ((demoPending 1).Inv ∧ (demoPending 1).rstp = true) :=
  ⟨⟨demo_inv, rfl⟩, ⟨demoRow_inv _ _, rfl⟩, ⟨demoPending_inv 1 (by decide) (by decide), rfl⟩⟩
theorem witness_TheCommandedResetComesAfterItsDelay :
    ((demoPending 100).Inv ∧ (demoPending 100).rstp = true ∧ 99 < (demoPending 100).rstc) ∧
    (demo.Inv ∧ demo.rstp = false ∧ 1#8 ≠ 0#8) :=
  ⟨⟨demoPending_inv 100 (by decide) (by decide), rfl, by decide⟩, demo_inv, rfl, by decide⟩
theorem witness_FirstEventAfterReset : demoParams.valid = true ∧ 255 < 256 := by decide
theorem witness_SlotLengthIsAsTheTableSays :
    ((demoSlot 191#8).Inv ∧ (demoSlot 191#8).rstp = false ∧ (demoSlot 191#8).slotStart) ∧
    0 < 1 ∧ 763 < slotTicks 2 191 ∧ slotTicks 2 191 = 764 :=
  ⟨⟨demoSlot_inv _, rfl, demoSlot_start _⟩, by decide⟩
theorem witness_HighTimeIsPreRollPlusPulse :
    ((demoSlot 0#8).Inv ∧ (demoSlot 0#8).rstp = false ∧ (demoSlot 0#8).slotStart ∧
      ((demoSlot 0#8).chan 1).en = true ∧ (demoSlot 0#8).pin 1 = true) ∧
    508 < slotTicks 2 0 ∧ highTicks 2 0 = 63 :=
  ⟨⟨demoSlot_inv _, rfl, demoSlot_start _, rfl, rfl⟩, by decide⟩
/-- Pulses 1 and 190, the ends of the regular range. -/
theorem witness_RoundRobinOfRegularSlots :
    let s := { demoSlot 190#8 with
      table := [demoChannel false 1#8, demoChannel true 190#8, demoChannel false 1#8, demoChannel true 190#8] }
    s.Inv ∧ s.rstp = false ∧ s.slotStart ∧
      ∀ k < s.cfg.n, 1 ≤ (s.chan k).pt.toNat ∧ (s.chan k).pt.toNat ≤ 190 :=
  ⟨⟨by decide, by decide, by decide, by decide, by decide, by decide, by decide, by decide⟩, rfl,
    demoSlot_start 190#8, by decide⟩
theorem witness_ReadBackOfAWidth :
    demo.Inv ∧ demo.rstp = false ∧ (3#8).toNat < demo.cfg.n ∧ 64 ≤ (512#16).toNat / demo.cfg.tickUs ∧
    (2559#16).toNat / demo.cfg.tickUs ≤ 319 :=
  ⟨demo_inv, rfl, by decide⟩
theorem witness_ReadBackOfAnAngle :
    demo.Inv ∧ demo.rstp = false ∧ (3#8).toNat < demo.cfg.n ∧ demo.cfg.tickUs = 8 ∧
    demo.cfg.rangeMinUs = 544#16 ∧ demo.cfg.rangeMaxUs = 2400#16 ∧ (180#16).toNat ≤ 180 ∧
    (demoChannel true 0#8).minUs = 544#16 ∧ (demoChannel true 0#8).maxUs = 2400#16 :=
  ⟨demo_inv, rfl, by decide⟩
theorem witness_ErrorsChangeNothing :
    (Instr.enable 4#8 0#16).isHost = true ∧
    ∃ t a, exec (.enable 4#8 0#16) demo = .next t ∧ t.answer = some a ∧ a.status ≠ .ok :=
  ⟨rfl, _, _, rfl, rfl, by decide⟩
theorem witness_ReadsHaveNoSideEffect :
    isRead (.getPos 3#8 0#16) = true ∧ ∃ t, exec (.getPos 3#8 0#16) demo = .next t := ⟨rfl, _, rfl⟩
theorem witness_WritesAreIdempotent :
    (∃ t, regWrite 0x20#8 90#8 demo = .next t) ∧ (∃ t, regWrite 0x00#8 1#8 demo = .next t) := ⟨⟨_, rfl⟩, ⟨_, rfl⟩⟩
theorem witness_TransactionsEqualOperations :
    demo.Inv ∧ (3#4).toNat < demo.cfg.n ∧ (3#8).toNat = (3#4).toNat ∧ 1#8 ≠ 0#8 ∧ demo.rstp = false :=
  ⟨demo_inv, by decide, rfl, by decide, rfl⟩
theorem witness_TicksToMicrosecondsInvertsWithinATick :
    ((255#8).toNat = (254#8).toNat + 1) ∧ (1 ≤ 8 ∧ usToTicks 8 2559 = some 255#8) ∧
    (1 ≤ 1 ∧ usToTicks 1 64 = some 0#8) := by decide

end Sys2Proof.Tests
end

section
/-! SUPPORT. The statements of spec/00_scope.md: which instruction the next turn runs, and that a parameter set
outside its constraints runs none. -/

namespace Sys2Proof

/-- Legal parameters are those that meet every constraint of R6 and R7. -/
theorem Params.valid_iff {p : Params} :
    p.valid = true ↔
      1 ≤ p.n ∧ p.n ≤ 16 ∧ 1 ≤ p.tickUs ∧ p.tickUs ≤ 205 ∧ p.rangeMinUs.toNat < p.rangeMaxUs.toNat ∧
        p.initChannel < p.n ∧ 1 ≤ p.resetDelayTicks ∧ p.mapValid = true := by
  simp only [Params.valid, Bool.and_eq_true, decide_eq_true_eq, and_assoc]

end Sys2Proof

namespace Sys2Proof.Machine

variable {s t : State} {rest : List Turn}

/-! ## What a turn's word decodes to -/

@[simp] theorem decoded_tickWord (s : State) : s.decoded (.ev 0#1) = .tick := rfl

@[simp] theorem decoded_porWord (s : State) : s.decoded (.ev 1#1) = .por := rfl

/-- The word of a phase decodes to the row that phase and the current pulse select (R73, R125). -/
@[simp] theorem decoded_phaseWord (s : State) (ph : Phase) :
    s.decoded (.ph ph.code) = (rowOf ph s.curChan.pt).instr := by
  simp only [State.decoded, decode, decodePh, phaseOfCode_code]

/-! ## The next turn, by the head of the list -/

theorem pick_powerOn (hs : s.env.sched = .powerOn :: rest) : pick s = .run (.ev 1#1) (s.withSched rest) := by
  simp [pick, hs]

/-- The bound is used up exactly when the flag is set and MAX_LATENCY_TICKS ticks have gone by (R178 (a)). -/
theorem handlerDue_eq_true :
    s.handlerDue = true ↔ s.mf = true ∧ s.cfg.maxLatencyTicks ≤ s.env.late := by
  simp [State.handlerDue]

theorem pick_timer_tick (hs : s.env.sched = .timer :: rest) (hd : ¬ s.handlerDue = true) :
    pick s = tickTurn rest s := by
  simp [pick, hs, hd]

theorem pick_scheduler_flag (hs : s.env.sched = .scheduler :: rest) (hm : s.mf = true) :
    pick s = handlerTurn rest s := by
  simp [pick, hs, hm]

theorem pick_host (hs : s.env.sched = .host :: rest) : pick s = hostTurn rest s := by
  simp [pick, hs]

theorem hostTurn_offered {w : HostWord} {ws : List HostWord} (hr : s.rstp = false)
    (hp : s.env.hostPort = w :: ws) :
    hostTurn rest s = .run w.toPort { s with env := { s.env with sched := rest, hostPort := ws } } := by
  simp [hostTurn, hr, hp]

/-! ## The step a turn comes to -/

theorem step_of_pick_run {w : PortWord} (hv : s.cfg.valid = true) (hp : pick s = .run w t) :
    step s = exec (t.decoded w) t := by
  rw [step_of_valid hv, hp]

/-- A tick's turn runs TICK, wherever in the schedule it comes from. -/
theorem step_of_tickTurn (hv : s.cfg.valid = true) (hp : pick s = tickTurn rest s) :
    step s = exec .tick
      { s with env := { s.env with sched := rest, late := if s.mf then s.env.late + 1 else 0 } } := by
  rw [step_of_pick_run hv hp, decoded_tickWord]

/-- The handler's turn runs the row that the phase and the current pulse select. -/
theorem step_of_handlerTurn (hv : s.cfg.valid = true) (hp : pick s = handlerTurn rest s) :
    step s = exec (rowOf s.ph (s.chan s.cur).pt).instr
      { s with env := { s.env with sched := rest, late := 0 } } := by
  rw [step_of_pick_run hv hp, decoded_phaseWord]
  rfl

/-! ## No instance, no step -/

/-- Whatever an instruction does is guarded by the legality of the parameters (R8). -/
theorem exec_eq_onInstance (i : Instr) (s : State) : ∃ t, exec i s = onInstance s t := by
  cases i <;> exact ⟨_, rfl⟩

theorem exec_of_invalid (h : ¬ s.cfg.valid = true) (i : Instr) : exec i s = .refused .notAnInstance := by
  obtain ⟨t, ht⟩ := exec_eq_onInstance i s
  rw [ht, onInstance, if_neg h]

theorem step_of_invalid (h : ¬ s.cfg.valid = true) : step s = .refused .notAnInstance := by
  rw [step, if_neg h]

/-! ## The statements -/

/-- Settles O9: for each head of the turn list, what `pick` answers and what its word decodes to. -/
theorem stepRunsTheDecodedInstruction : Obligations.StepRunsTheDecodedInstruction := by
  intro s rest hv
  refine ⟨fun hs => ?powerOn, fun hs hlate => ?timer, fun hs hm => ?scheduler, fun hs hr w ws hw => ?host⟩
  case powerOn => exact step_of_pick_run hv (pick_powerOn hs)
  case timer =>
    have hd : ¬ s.handlerDue = true := fun hd =>
      have ⟨hm, hle⟩ := handlerDue_eq_true.mp hd
      absurd (hlate hm) (Nat.not_lt.mpr hle)
    exact step_of_tickTurn hv (pick_timer_tick hs hd)
  case scheduler => exact step_of_handlerTurn hv (pick_scheduler_flag hs hm)
  case host => exact step_of_pick_run hv ((pick_host hs).trans (hostTurn_offered hr hw))

/-- Settles O13: a failing constraint makes the set illegal, and then `step` and every instruction refuse. -/
theorem illegalParametersAreRefused : Obligations.IllegalParametersAreRefused := by
  intro s hbad
  have hv : ¬ s.cfg.valid = true := mt Params.valid_iff.mp hbad
  exact ⟨step_of_invalid hv, exec_of_invalid hv⟩

end Sys2Proof.Machine
end

section
/-! SUPPORT. The statements of spec/10_state.md: which agent writes which piece of state, that reset makes a sound
state and every step keeps it, and what R37 says of every state reached. -/

namespace Sys2Proof.Machine

variable {i : Instr} {r : Row} {s t : State}

/-! ## Reset (R36, R201) -/

theorem resetIn_inv {p : Params} {e : Env} (hv : p.valid = true) (hl : e.late ≤ p.maxLatencyTicks) :
    (State.resetIn p e).Inv where
  instance_valid := hv
  table_length := List.length_replicate
  pins_length := List.length_replicate
  cur_lt := by
    obtain ⟨-, -, -, -, -, hinit, -⟩ := Params.valid_iff.mp hv
    exact hinit
  ranges c hc := by
    rw [resetIn_table] at hc
    rw [List.eq_of_mem_replicate hc]
    exact ⟨rfl, rfl⟩
  idle_count _ := rfl
  pending_count h := absurd h Bool.false_ne_true
  latency := hl

/-- The reference design is a legal instance, whatever its OPEN parameters. -/
theorem reference_valid (trim : Fin 64) (delay lat : Nat) :
    (Params.reference trim (delay + 1) lat).valid = true := by
  refine Params.valid_iff.mpr ⟨?_, ?_, ?_, ?_, ?_, ?_, Nat.le_add_left 1 delay, rfl⟩
  all_goals simp [Params.reference]

theorem resetNow_inv (hv : s.cfg.valid = true) : s.resetNow.Inv :=
  resetIn_inv hv (Nat.zero_le _)

/-- POR and the tick that ends the delay leave the same state. -/
theorem exec_of_isReset (hreset : isReset i s) (h : exec i s = .next t) : t = s.resetNow := by
  rcases hreset with rfl | ⟨rfl, hr, hc⟩
  · exact (exec_por_cases h).2
  · rw [exec_tick_reset (exec_tick_cases h).1 hr hc] at h
    exact (Host.Outcome.next.inj h).symm

/-- Settles O1: each clause of the invariant at the reset values. -/
theorem resetStateIsSound : Obligations.ResetStateIsSound :=
  ⟨fun _ _ hv hl => resetIn_inv hv hl, resetIn_inv (reference_valid _ _ _) (Nat.zero_le _)⟩

/-- Settles O2: both steps leave `State.resetNow`, whose fields are R36's. -/
theorem powerOnResetWritesEveryResetValue : Obligations.PowerOnResetWritesEveryResetValue := by
  intro s hv
  refine ⟨⟨s.resetNow, exec_por hv, ?_⟩, fun hr hc => (exec_tick_reset hv hr hc).trans (exec_por hv).symm⟩
  rw [resetNow_eq]
  simp [resetIn_chan, resetIn_pin, Channel.atReset]

/-! ## The Host -/

/-- A Host instruction writes nothing but the table, the reset-pending state and the answer (R35). -/
theorem exec_host_rest (hh : i.isHost = true) (h : exec i s = .next t) :
    { t with table := s.table, rstp := s.rstp, rstc := s.rstc, answer := s.answer } = s := by
  obtain ⟨-, ⟨-, rfl⟩ | ⟨-, ⟨_, -, rfl⟩ | ⟨_, rfl⟩ | ⟨_, _, -, rfl⟩ | ⟨_, _, -, rfl⟩⟩⟩ := exec_host_cases hh h
  all_goals rfl

/-- A Host instruction either starts the commanded reset or writes the table and the answer only. -/
theorem exec_host_frame (hh : i.isHost = true) (h : exec i s = .next t) :
    HostFrame s t ∨ ∃ d, i = .wrResetNz d ∧
      t = { s with rstp := true, rstc := s.cfg.resetDelayTicks, answer := some answerDone } := by
  obtain ⟨-, ⟨-, rfl⟩ | ⟨-, ⟨d, hi, ht⟩ | ⟨_, rfl⟩ | ⟨k, v, -, rfl⟩ | ⟨k, v, -, rfl⟩⟩⟩ := exec_host_cases hh h
  · exact .inl (HostFrame.refl _)
  · exact .inr ⟨d, hi, ht⟩
  · exact .inl (HostFrame.refl s).withAnswer
  · exact .inl (hostFrame_setEn s k v).withAnswer
  · exact .inl (hostFrame_setPt s k v).withAnswer

/-- What a Host instruction leaves of the table: all but the field its channel operand names (R23, R24). -/
theorem exec_host_table (hh : i.isHost = true) (h : exec i s = .next t) :
    t.table.length = s.table.length ∧
    (∀ j, (t.chan j).minUs = (s.chan j).minUs ∧ (t.chan j).maxUs = (s.chan j).maxUs) ∧
    (∀ j, enableTarget? i ≠ some j → (t.chan j).en = (s.chan j).en) ∧
    (∀ j, pulseTarget? i ≠ some j → (t.chan j).pt = (s.chan j).pt) ∧
    (enableTarget? i = none → pulseTarget? i = none → t.table = s.table) := by
  obtain ⟨-, ⟨-, rfl⟩ | ⟨-, ⟨_, -, rfl⟩ | ⟨_, rfl⟩ | ⟨k, v, hk, rfl⟩ | ⟨k, v, hk, rfl⟩⟩⟩ := exec_host_cases hh h
  · exact ⟨rfl, fun _ => ⟨rfl, rfl⟩, fun _ _ => rfl, fun _ _ => rfl, fun _ _ => rfl⟩
  · exact ⟨rfl, fun _ => ⟨rfl, rfl⟩, fun _ _ => rfl, fun _ _ => rfl, fun _ _ => rfl⟩
  · exact ⟨rfl, fun _ => ⟨rfl, rfl⟩, fun _ _ => rfl, fun _ _ => rfl, fun _ _ => rfl⟩
  · refine ⟨by simp, by simp, fun j hj => ?_, by simp, by simp [hk]⟩
    have hne : j ≠ k := fun e => hj (e ▸ hk)
    exact setEn_chan_en_of_ne s v hne
  · refine ⟨by simp, by simp, by simp, fun j hj => ?_, by simp [hk]⟩
    have hne : j ≠ k := fun e => hj (e ▸ hk)
    exact setPt_chan_pt_of_ne s v hne

/-- Only the nonzero write to the reset address starts a reset (R33). -/
theorem exec_host_pending (hh : i.isHost = true) (h : exec i s = .next t) (hi : ∀ d, i ≠ .wrResetNz d) :
    t.rstp = s.rstp ∧ t.rstc = s.rstc := by
  rcases exec_host_frame hh h with f | ⟨d, hd, -⟩
  · exact ⟨(congrArg State.rstp f.rest :), (congrArg State.rstc f.rest :)⟩
  · exact absurd hd (hi d)

/-- Settles O41: the three frames of a Host instruction, field by field. -/
theorem hostNeverTouchesTheScheduler : Obligations.HostNeverTouchesTheScheduler := by
  intro i s t hh h
  have rest := exec_host_rest hh h
  obtain ⟨hlen, hrange, hen, hpt, htable⟩ := exec_host_table hh h
  exact ⟨(congrArg State.ph rest :), (congrArg State.cur rest :), (congrArg State.cnt rest :),
    (congrArg State.cmp rest :), (congrArg State.mf rest :), (congrArg State.pins rest :),
    (congrArg State.cfg rest :), (congrArg State.env rest :), hlen, hrange, hen, hpt, htable,
    exec_host_pending hh h⟩

/-- Settles O20: the equation of the row, and a table that reads as before. -/
theorem wrResetNzStartsTheCommandedReset : Obligations.WrResetNzStartsTheCommandedReset := by
  intro s d hv hr _
  exact ⟨_, exec_wrResetNz d hv hr, rfl, rfl, rfl, rfl, fun _ => rfl⟩

/-! ## The handler -/

theorem isr_eq_exec (hr : s.row = r) : isr s = exec r.instr s := by
  rw [isr, hr]

theorem rowEnabled_of_flag (hm : s.mf = true) (hr : s.row = r) : s.rowEnabled r = true :=
  rowEnabled_eq_true.mpr ⟨hm, hr⟩

theorem isr_of_setPinHigh (hv : s.cfg.valid = true) (hm : s.mf = true) (hp : s.ph = .setPinHigh) :
    isr s = .next
      ((s.enterHandler.advanceChannel.drivePin true).program (preRollCompare s.cfg) 0#8 .waitPreRoll) := by
  have hr : s.row = .setPinHigh := by rw [State.row, hp, rowOf]
  exact (isr_eq_exec hr).trans (exec_isrSetPinHigh hv (rowEnabled_of_flag hm hr))

theorem isr_of_waitPreRoll (hv : s.cfg.valid = true) (hm : s.mf = true) (hp : s.ph = .waitPreRoll) :
    isr s = .next (s.enterHandler.program s.curChan.pt (preRollCount s.curChan.pt) .setPinLow) := by
  have hr : s.row = .waitPreRoll := by rw [State.row, hp, rowOf]
  exact (isr_eq_exec hr).trans (exec_isrWaitPreRoll hv (rowEnabled_of_flag hm hr))

theorem isr_of_setPinLow_short (hv : s.cfg.valid = true) (hm : s.mf = true) (hp : s.ph = .setPinLow)
    (hpt : s.curChan.pt.toNat ≤ 191) :
    isr s = .next ((s.enterHandler.drivePin false).program (shortCompare s.curChan.pt) 0#8 .waitFrameEnd) := by
  have hr : s.row = .setPinLowShort := by rw [State.row, hp, rowOf_setPinLow, if_neg (by omega)]
  exact (isr_eq_exec hr).trans (exec_isrSetPinLowShort hv (rowEnabled_of_flag hm hr))

theorem isr_of_setPinLow_long (hv : s.cfg.valid = true) (hm : s.mf = true) (hp : s.ph = .setPinLow)
    (hpt : 192 ≤ s.curChan.pt.toNat) :
    isr s = .next ((s.enterHandler.drivePin false).program (longCompare s.curChan.pt) 0#8 .setPinHigh) := by
  have hr : s.row = .setPinLowLong := by rw [State.row, hp, rowOf_setPinLow, if_pos hpt]
  exact (isr_eq_exec hr).trans (exec_isrSetPinLowLong hv (rowEnabled_of_flag hm hr))

theorem isr_of_waitFrameEnd (hv : s.cfg.valid = true) (hm : s.mf = true) (hp : s.ph = .waitFrameEnd) :
    isr s = .next (s.enterHandler.program frameEndCompare 0#8 .setPinHigh) := by
  have hr : s.row = .waitFrameEnd := by rw [State.row, hp, rowOf]
  exact (isr_eq_exec hr).trans (exec_isrWaitFrameEnd hv (rowEnabled_of_flag hm hr))

/-- A row writes nothing but what is the handler's (R35). -/
theorem exec_row_frame (hr : i.row? = some r) (h : exec i s = .next t) : HandlerFrame s t := by
  obtain ⟨hv, -, ⟨-, rfl⟩ | ⟨he, -, hisr⟩⟩ := exec_row_cases hr h
  · exact HandlerFrame.refl _
  · obtain ⟨u, hu, -, frame⟩ := isr_of_flag hv (rowEnabled_eq_true.mp he).1
    rw [hisr] at hu
    cases hu
    exact frame

/-- Settles O42: the frame of a row, field by field. -/
theorem handlerNeverTouchesTheTable : Obligations.HandlerNeverTouchesTheTable := by
  intro i r s t hr h
  have frame := exec_row_frame hr h
  obtain ⟨rest, -, hsame⟩ := onlyHandled_of_frame frame
  exact ⟨(congrArg State.table rest :), (congrArg State.rstp rest :), (congrArg State.rstc rest :),
    (congrArg State.answer rest :), (congrArg State.cfg rest :), (congrArg State.env rest :), hsame⟩

/-! ## Phase, current channel and pins: the scheduler's alone -/

/-- No instruction but a row and a reset writes the scheduler's state or a pin (R26, R32). -/
theorem exec_keeps_scheduler (h : exec i s = .next t) (hrow : i.row? = none) (hreset : ¬ isReset i s) :
    t.ph = s.ph ∧ t.cur = s.cur ∧ t.pins = s.pins := by
  rcases i.agent_cases with hh | ⟨r, hr⟩ | rfl | rfl
  · have rest := exec_host_rest hh h
    exact ⟨(congrArg State.ph rest :), (congrArg State.cur rest :), (congrArg State.pins rest :)⟩
  · rw [hrow] at hr
    cases hr
  · obtain ⟨-, ⟨-, rfl⟩ | ⟨-, -, rfl⟩ | ⟨hp, hc, -⟩⟩ := exec_tick_cases h
    · exact ⟨rfl, rfl, rfl⟩
    · exact ⟨rfl, rfl, rfl⟩
    · exact absurd (.inr ⟨rfl, hp, hc⟩) hreset
  · exact absurd (.inl rfl) hreset

/-- Settles O39: the row each phase selects (in `SetPinLow` by the pulse) and what it programs. -/
theorem nextStateFunction : Obligations.NextStateFunction := by
  refine ⟨fun s hi hm => ?table, fun i s t h hrow hreset => ?others⟩
  case others =>
    obtain ⟨hph, hcur, -⟩ := exec_keeps_scheduler h hrow hreset
    exact ⟨hph, hcur⟩
  case table =>
    have hv := hi.instance_valid
    cases hph : s.ph with
    | setPinHigh => exact ⟨_, isr_of_setPinHigh hv hm hph, by simp, by simp⟩
    | waitPreRoll => exact ⟨_, isr_of_waitPreRoll hv hm hph, by simp, by simp⟩
    | setPinLow =>
      rcases Nat.lt_or_ge 191 s.curChan.pt.toNat with hlong | hshort
      · exact ⟨_, isr_of_setPinLow_long hv hm hph hlong, by simp, (if_neg (Nat.not_le.mpr hlong)).symm⟩
      · exact ⟨_, isr_of_setPinLow_short hv hm hph hshort, by simp, (if_pos hshort).symm⟩
    | waitFrameEnd => exact ⟨_, isr_of_waitFrameEnd hv hm hph, by simp, by simp⟩

/-! ## Soundness of every step -/

/-- The surroundings may announce anything within the latency bound. -/
theorem State.Inv.withEnv (hi : s.Inv) {e : Env} (hl : e.late ≤ s.cfg.maxLatencyTicks) :
    { s with env := e }.Inv :=
  { hi with latency := hl }

theorem State.Inv.of_hostFrame (hi : s.Inv) (frame : HostFrame s t) : t.Inv := by
  have hi' : { t with table := s.table, answer := s.answer }.Inv := by rw [frame.rest]; exact hi
  have hranges : ∀ c ∈ t.table, c.minUs = t.cfg.rangeMinUs ∧ c.maxUs = t.cfg.rangeMaxUs := by
    intro c hc
    obtain ⟨d, hd, hmin, hmax⟩ := frame.ranges c hc
    rw [hmin, hmax]
    exact hi'.ranges d hd
  exact { hi' with table_length := frame.table_length.trans hi'.table_length, ranges := hranges }

theorem State.Inv.of_handlerFrame (hi : s.Inv) (frame : HandlerFrame s t) (hcur : t.cur < s.cfg.n) : t.Inv := by
  have hi' : { t with ph := s.ph, cur := s.cur, cnt := s.cnt, cmp := s.cmp, mf := s.mf, pins := s.pins }.Inv := by
    rw [frame.rest]; exact hi
  have hcfg : t.cfg = s.cfg := (congrArg State.cfg frame.rest :)
  exact { hi' with pins_length := frame.pins_length.trans hi'.pins_length, cur_lt := hcfg ▸ hcur }

/-- The handler's step leaves `CUR` a channel: it is kept, or reduced modulo `N` (R132). -/
theorem isr_cur_lt (hi : s.Inv) (hm : s.mf = true) (h : isr s = .next t) : t.cur < s.cfg.n := by
  obtain ⟨u, hu, hcur, -⟩ := nextStateFunction.1 s hi hm
  rw [h] at hu
  cases hu
  rw [hcur]
  split
  · exact Nat.mod_lt _ (Nat.zero_lt_of_lt hi.cur_lt)
  · exact hi.cur_lt

theorem exec_host_keeps_inv (hi : s.Inv) (hh : i.isHost = true) (h : exec i s = .next t) : t.Inv := by
  rcases exec_host_frame hh h with frame | ⟨d, -, rfl⟩
  · exact hi.of_hostFrame frame
  · obtain ⟨-, -, -, -, -, -, hdelay, -⟩ := Params.valid_iff.mp hi.instance_valid
    exact { hi with
      idle_count := fun e => absurd e (by simp)
      pending_count := fun _ => ⟨hdelay, Nat.le_refl _⟩ }

theorem exec_row_keeps_inv (hi : s.Inv) (hr : i.row? = some r) (h : exec i s = .next t) : t.Inv := by
  obtain ⟨-, -, ⟨-, rfl⟩ | ⟨he, -, hisr⟩⟩ := exec_row_cases hr h
  · exact hi
  · exact hi.of_handlerFrame (exec_row_frame hr h) (isr_cur_lt hi (rowEnabled_eq_true.mp he).1 hisr)

theorem exec_tick_keeps_inv (hi : s.Inv) (h : exec .tick s = .next t) : t.Inv := by
  obtain ⟨hv, ⟨-, rfl⟩ | ⟨hp, hc, rfl⟩ | ⟨-, -, rfl⟩⟩ := exec_tick_cases h
  · exact { hi with }
  · obtain ⟨hlow, hhigh⟩ := hi.pending_count hp
    have hcount : 1 ≤ s.rstc - 1 ∧ s.rstc - 1 ≤ s.cfg.resetDelayTicks := by omega
    exact { hi with
      idle_count := fun e => absurd (hp.symm.trans e) (by simp)
      pending_count := fun _ => hcount }
  · exact resetNow_inv hv

/-- Every instruction keeps the invariant, whatever the order of the agents. -/
theorem exec_keeps_inv (hi : s.Inv) (h : exec i s = .next t) : t.Inv := by
  rcases i.agent_cases with hh | ⟨r, hr⟩ | rfl | rfl
  · exact exec_host_keeps_inv hi hh h
  · exact exec_row_keeps_inv hi hr h
  · exact exec_tick_keeps_inv hi h
  · rw [(exec_por_cases h).2]
    exact resetNow_inv hi.instance_valid

/-- No instruction writes the parameters (R34). -/
theorem exec_keeps_cfg (h : exec i s = .next t) : t.cfg = s.cfg := by
  rcases i.agent_cases with hh | ⟨r, hr⟩ | rfl | rfl
  · exact (congrArg State.cfg (exec_host_rest hh h) :)
  · exact (congrArg State.cfg (exec_row_frame hr h).rest :)
  · obtain ⟨-, ⟨-, rfl⟩ | ⟨-, -, rfl⟩ | ⟨-, -, rfl⟩⟩ := exec_tick_cases h
    all_goals rfl
  · rw [(exec_por_cases h).2]
    rfl

/-- The next turn changes nothing but the surroundings, and keeps the latency bound (R178). -/
theorem pick_cases_env (hl : s.env.late ≤ s.cfg.maxLatencyTicks) :
    ∃ e : Env, e.late ≤ s.cfg.maxLatencyTicks ∧
      ((∃ w, pick s = .run w { s with env := e }) ∨ pick s = .idle { s with env := e }) := by
  rcases pick_cases s with ⟨rest, -, hp⟩ | ⟨rest, hdue, hp⟩ | ⟨rest, -, hp⟩ | ⟨rest, -, hp⟩ | ⟨rest, hp⟩
  · exact ⟨{ s.env with sched := rest }, hl, .inl ⟨_, hp⟩⟩
  · have hlate : (if s.mf then s.env.late + 1 else 0) ≤ s.cfg.maxLatencyTicks := by
      split
      · next hm =>
        exact Nat.lt_of_not_le fun hle => absurd (handlerDue_eq_true.mpr ⟨hm, hle⟩) (by simp [hdue])
      · exact Nat.zero_le _
    exact ⟨_, hlate, .inl ⟨_, hp⟩⟩
  · exact ⟨{ s.env with sched := rest, late := 0 }, Nat.zero_le _, .inl ⟨_, hp⟩⟩
  · rw [hp]
    rcases hostTurn_cases rest s with ⟨hidle, -⟩ | ⟨w, ws, -, -, hrun⟩
    · exact ⟨{ s.env with sched := rest }, hl, .inr hidle⟩
    · exact ⟨{ s.env with sched := rest, hostPort := ws }, hl, .inl ⟨_, hrun⟩⟩
  · exact ⟨{ s.env with sched := rest }, hl, .inr hp⟩

/-- Everything a step of a sound state can do: only its turn passes, or it runs one instruction. -/
theorem step_cases (hi : s.Inv) (h : step s = .next t) :
    ∃ e : Env, { s with env := e }.Inv ∧
      (t = { s with env := e } ∨ ∃ i, exec i { s with env := e } = .next t) := by
  obtain ⟨e, hl, ⟨w, hp⟩ | hp⟩ := pick_cases_env hi.latency
  · rw [step_of_pick_run hi.instance_valid hp] at h
    exact ⟨e, hi.withEnv hl, .inr ⟨_, h⟩⟩
  · rw [step_of_valid hi.instance_valid, hp] at h
    exact ⟨e, hi.withEnv hl, .inl (Host.Outcome.next.inj h).symm⟩

/-- Settles O3: the turn keeps the invariant, and so does the instruction it runs. -/
theorem everyStepKeepsSoundness : Obligations.EveryStepKeepsSoundness := by
  intro s t hi h
  obtain ⟨e, hie, rfl | ⟨i, hexec⟩⟩ := step_cases hi h
  · exact ⟨hie, rfl⟩
  · exact ⟨exec_keeps_inv hie hexec, (exec_keeps_cfg hexec :)⟩

/-! ## The reached states (R37) -/

/-- A run answers a next state exactly when its first step does and so does the rest of it. -/
theorem coreRun_succ_eq_next (M : Host.Core) {n : Nat} {s t : M.State} :
    M.run (n + 1) s = .next t ↔ ∃ u, M.step s = .next u ∧ M.run n u = .next t := by
  rw [Host.Core.run]
  cases M.step s <;> simp

/-- What every step keeps holds after any number of steps. -/
theorem coreRun_induction (M : Host.Core) {P : M.State → Prop}
    (hstep : ∀ s t, P s → M.step s = .next t → P t) {n : Nat} {s t : M.State} (hs : P s)
    (h : M.run n s = .next t) : P t := by
  induction n generalizing s with
  | zero =>
    cases h
    exact hs
  | succ n ih =>
    obtain ⟨u, hu, hrun⟩ := (coreRun_succ_eq_next M).mp h
    exact ih (hstep s u hs hu) hrun

/-- Every reached state is sound. -/
theorem State.Reached.inv (h : s.Reached) : s.Inv := by
  obtain ⟨p, env, n, hv, hl, hrun⟩ := h
  have keeps (u v : State) (hu : u.Inv) (huv : step u = .next v) : v.Inv :=
    (everyStepKeepsSoundness u v hu huv).1
  exact coreRun_induction Sys2Proof.core keeps (resetIn_inv hv hl) hrun

/-- In a sound state every channel has the instance's range, which is not empty. -/
theorem State.Inv.range_lt (hi : s.Inv) {k : Nat} (hk : k < s.table.length) :
    (s.chan k).minUs.toNat < (s.chan k).maxUs.toNat := by
  obtain ⟨hmin, hmax⟩ := hi.ranges _ (chan_mem s hk)
  obtain ⟨-, -, -, -, hrange, -⟩ := Params.valid_iff.mp hi.instance_valid
  rw [hmin, hmax]
  exact hrange

/-- Settles O4: a reached state is sound, and a byte is at most 255. -/
theorem reachedStatesKeepTheInvariantsOfR37 : Obligations.ReachedStatesKeepTheInvariantsOfR37 := by
  intro s hs
  have hi := hs.inv
  have byte_le (b : Byte) : b.toNat ≤ 255 := Nat.le_of_lt_succ b.isLt
  refine ⟨fun k hk => ?_, hi.cur_lt, ?_, byte_le _, byte_le _, hi.idle_count, hi.pending_count⟩
  · have hk' : k < s.table.length := hk.trans_eq hi.table_length.symm
    exact ⟨hk', byte_le _, hi.range_lt hk'⟩
  · cases s.ph <;> simp

/-! ## The pins (R32, R134) -/

/-- Driving the current pin changes at most that pin, only if its channel is enabled, and to the level driven. -/
theorem drivePin_pin_ne {v : Bool} {k : Nat} (hcur : s.cur < s.pins.length)
    (hne : (s.drivePin v).pin k ≠ s.pin k) :
    k = s.cur ∧ (s.chan k).en = true ∧ (s.drivePin v).pin k = v := by
  rw [drivePin_pin s v hcur] at hne ⊢
  split at hne
  · next hdriven =>
    obtain ⟨rfl, hen⟩ := hdriven
    exact ⟨rfl, hen, by simp [hen]⟩
  · exact absurd rfl hne

/-- A row changes at most the pin of its channel, only if enabled, and to the level of its phase. -/
theorem exec_row_pin_ne {k : Nat} (hi : s.Inv) (he : s.rowEnabled r = true) (h : exec r.instr s = .next t)
    (hne : t.pin k ≠ s.pin k) :
    k = t.cur ∧ (s.chan k).en = true ∧
      ((r = .setPinHigh ∧ t.pin k = true) ∨
        ((r = .setPinLowShort ∨ r = .setPinLowLong) ∧ t.pin k = false)) := by
  have hv := hi.instance_valid
  have hcur : s.cur < s.pins.length := hi.cur_lt.trans_eq hi.pins_length.symm
  have hnext : (s.cur + 1) % s.cfg.n < s.pins.length :=
    (Nat.mod_lt _ (Nat.zero_lt_of_lt hi.cur_lt)).trans_eq hi.pins_length.symm
  cases r with
  | setPinHigh =>
    cases h.symm.trans (exec_isrSetPinHigh hv he)
    obtain ⟨hk, hen, hpin⟩ := drivePin_pin_ne (s := s.enterHandler.advanceChannel) hnext hne
    exact ⟨by simpa using hk, hen, .inl ⟨rfl, hpin⟩⟩
  | waitPreRoll =>
    cases h.symm.trans (exec_isrWaitPreRoll hv he)
    exact absurd rfl hne
  | setPinLowShort =>
    cases h.symm.trans (exec_isrSetPinLowShort hv he)
    obtain ⟨hk, hen, hpin⟩ := drivePin_pin_ne (s := s.enterHandler) hcur hne
    exact ⟨by simpa using hk, hen, .inr ⟨.inl rfl, hpin⟩⟩
  | setPinLowLong =>
    cases h.symm.trans (exec_isrSetPinLowLong hv he)
    obtain ⟨hk, hen, hpin⟩ := drivePin_pin_ne (s := s.enterHandler) hcur hne
    exact ⟨by simpa using hk, hen, .inr ⟨.inr rfl, hpin⟩⟩
  | waitFrameEnd =>
    cases h.symm.trans (exec_isrWaitFrameEnd hv he)
    exact absurd rfl hne

/-- Settles O43: a reset leaves every pin low, a row drives its channel's, and no other instruction drives one. -/
theorem pinsChangeOnlyInTheirRows : Obligations.PinsChangeOnlyInTheirRows := by
  intro i s t k hi h hne
  by_cases hreset : isReset i s
  · rw [exec_of_isReset hreset h]
    exact .inl ⟨hreset, resetIn_pin _ _ k⟩
  cases hrow : i.row? with
  | none =>
    obtain ⟨-, -, hpins⟩ := exec_keeps_scheduler h hrow hreset
    exact absurd (by rw [State.pin, hpins, State.pin]) hne
  | some r =>
    obtain ⟨-, rfl, ⟨-, rfl⟩ | ⟨he, -, -⟩⟩ := exec_row_cases hrow h
    · exact absurd rfl hne
    · obtain ⟨hk, hen, hlevel⟩ := exec_row_pin_ne hi he h hne
      refine .inr ⟨hk, hen, ?_⟩
      rcases hlevel with ⟨rfl, hpin⟩ | ⟨rfl | rfl, hpin⟩
      · exact .inl ⟨rfl, hpin⟩
      · exact .inr ⟨.inl rfl, hpin⟩
      · exact .inr ⟨.inr rfl, hpin⟩

/-- Settles O44: a pin that goes high is that of an enabled channel, and the turn changes no channel. -/
theorem aDisabledChannelIsNeverDrivenHigh : Obligations.ADisabledChannelIsNeverDrivenHigh := by
  intro s t k hi hen hlow h
  by_contra hhigh
  obtain ⟨e, hie, rfl | ⟨i, hexec⟩⟩ := step_cases hi h
  · exact hhigh hlow
  · have hne : t.pin k ≠ ({ s with env := e } : State).pin k := fun hsame => hhigh (hsame.trans hlow)
    rcases pinsChangeOnlyInTheirRows i _ t k hie hexec hne with ⟨-, hpin⟩ | ⟨-, hen', -⟩
    · exact hhigh hpin
    · exact absurd (hen.symm.trans hen') Bool.false_ne_true

end Sys2Proof.Machine
end

section
/-! SUPPORT. The statements of spec/20_memory.md: the address map on the reference bases, the one access width, and
that every Host step done twice leaves the state of the first. -/

namespace Sys2Proof

/-! ## The address map on bases that are whole nibbles (R74, R75) -/

/-- A range of at most 16 addresses from the base `16 * h` is told by the high nibble `h`. -/
theorem inRange_iff_highNibble {p : Params} {b a : Byte} {h : Nat} (hn : p.n ≤ 16) (hb : b.toNat = 16 * h) :
    p.inRange b a = true ↔ a.toNat / 16 = h ∧ a.toNat % 16 < p.n := by
  rw [inRange_iff]
  omega

/-- In such a range the offset is the low nibble. -/
theorem offset_eq_lowNibble {b a : Byte} {h : Nat} (hb : b.toNat = 16 * h) (ha : a.toNat / 16 = h) :
    a.toNat - b.toNat = a.toNat % 16 := by
  omega

/-- Settles O8: on these bases each test of the decoder is a test of the high nibble, each offset the low one. -/
theorem referenceMapIsTheHighNibble : Obligations.ReferenceMapIsTheHighNibble := by
  intro p a hv hreset henable hposition hticks
  obtain ⟨-, hn⟩ := Params.n_le_of_valid hv
  have hzero : a = p.addrReset ↔ a.toNat = 0 := by rw [hreset]; exact BitVec.toNat_inj.symm
  have he : p.baseEnable.toNat = 16 * 1 := by rw [henable]; rfl
  have hp : p.basePosition.toNat = 16 * 2 := by rw [hposition]; rfl
  have ht : p.baseTicks.toNat = 16 * 3 := by rw [hticks]; rfl
  simp only [classify, hzero, inRange_iff_highNibble hn he, inRange_iff_highNibble hn hp,
    inRange_iff_highNibble hn ht]
  split_ifs with _ hE hP hT
  · rfl
  · rw [offset_eq_lowNibble he hE.1]
  · rw [offset_eq_lowNibble hp hP.1]
  · rw [offset_eq_lowNibble ht hT.1]
  · rfl

/-- A register write is an instruction of the Host, whatever the address (R9, R150). -/
theorem decodeRegWrite_isHost (p : Params) (addr v : Byte) : (decodeRegWrite p addr v).isHost = true := by
  unfold decodeRegWrite
  cases classify p addr with
  | reset => by_cases hz : v = 0#8 <;> simp [hz, Instr.isHost]
  | enable k => rfl
  | position k => rfl
  | ticks k => rfl
  | undef => rfl

end Sys2Proof

namespace Sys2Proof.Machine

variable {i : Instr} {s t : State}

/-! ## The access width (R50, R51) -/

theorem memRead_one (addr : Byte) (s : State) : memRead addr 1 s = regRead addr s := if_pos rfl

/-- The byte written is the low 8 bits of `v` (log 18). -/
theorem memWrite_one (addr : Byte) (v : Nat) (s : State) :
    memWrite addr 1 v s = regWrite addr (BitVec.ofNat 8 v) s := if_pos rfl

theorem memRead_of_ne_one {bytes : Nat} (h : bytes ≠ 1) (addr : Byte) (s : State) :
    memRead addr bytes s = .refused (.accessWidth bytes) := if_neg h

theorem memWrite_of_ne_one {bytes : Nat} (h : bytes ≠ 1) (addr : Byte) (v : Nat) (s : State) :
    memWrite addr bytes v s = .refused (.accessWidth bytes) := if_neg h

/-- Settles O25: the two branches of the width test. -/
theorem otherAccessWidthsAreRefused : Obligations.OtherAccessWidthsAreRefused :=
  fun s addr _ v => ⟨memRead_one addr s, memWrite_one addr v s,
    fun h => ⟨memRead_of_ne_one h addr s, memWrite_of_ne_one h addr v s⟩⟩

/-! ## The stores done twice -/

/-- The same `EN[k]` write with the same answer, twice. -/
theorem setEn_again (s : State) (k : Nat) (v : Bool) (a : Answer) :
    (((s.setEn k v).withAnswer a).setEn k v).withAnswer a = (s.setEn k v).withAnswer a := by
  simp [State.setEn, State.withAnswer, List.modify_modify_eq, Function.comp_def]

/-- The same `PT[k]` write with the same answer, twice. -/
theorem setPt_again (s : State) (k : Nat) (v : Byte) (a : Answer) :
    (((s.setPt k v).withAnswer a).setPt k v).withAnswer a = (s.setPt k v).withAnswer a := by
  simp [State.setPt, State.withAnswer, List.modify_modify_eq, Function.comp_def]

/-- A pulse write leaves the range of every channel, so an angle keeps its width. -/
theorem degToUs_setPt (s : State) (k : Nat) (pt : Byte) (j deg : Nat) :
    degToUs ((s.setPt k pt).chan j) deg = degToUs (s.chan j) deg := by
  simp [degToUs]

/-- What R56 asks of the body of a Host step: a second run leaves what the first left, on the same instance. -/
structure Repeatable (body : State → State) : Prop where
  keeps_cfg : ∀ s, (body s).cfg = s.cfg
  again : ∀ s, body (body s) = body s

/-- A step that only answers may be repeated where its answer does not depend on an earlier one. -/
theorem repeatable_withAnswer {out : State → Answer} (hout : ∀ s a, out (s.withAnswer a) = out s) :
    Repeatable fun s => s.withAnswer (out s) where
  keeps_cfg _ := rfl
  again s := by
    simp only [hout]
    rfl

theorem repeatable_setEn (k : Nat) (v : Bool) : Repeatable fun s => (s.setEn k v).withAnswer answerDone where
  keeps_cfg _ := rfl
  again s := setEn_again s k v answerDone

theorem repeatable_setPt (k : Nat) (v : Byte) : Repeatable fun s => (s.setPt k v).withAnswer answerDone where
  keeps_cfg _ := rfl
  again s := setPt_again s k v answerDone

/-- The commanded reset sets the same two fields again. -/
theorem repeatable_commandedReset :
    Repeatable fun s => { s with rstp := true, rstc := s.cfg.resetDelayTicks, answer := some answerDone } where
  keeps_cfg _ := rfl
  again _ := rfl

/-- The width is accepted by the tick alone, which no store changes. -/
theorem repeatable_storeWidth (k us : Nat) : Repeatable (storeWidth k us) where
  keeps_cfg s := by
    rcases storeWidth_cases k us s with ⟨-, h⟩ | ⟨pt, -, h⟩ <;> rw [h] <;> rfl
  again s := by
    rcases storeWidth_cases k us s with ⟨hnone, h⟩ | ⟨pt, hsome, h⟩
    · rw [h, storeWidth, raise_cfg, hnone]
      rfl
    · rw [h, storeWidth, withAnswer_cfg, setPt_cfg, hsome]
      exact setPt_again s k pt answerDone

/-- A stored width leaves the range of every channel. -/
theorem degToUs_storeWidth (s : State) (k us j deg : Nat) :
    degToUs ((storeWidth k us s).chan j) deg = degToUs (s.chan j) deg := by
  rcases storeWidth_cases k us s with ⟨-, h⟩ | ⟨pt, -, h⟩
  · rw [h, raise_chan]
  · rw [h, withAnswer_chan, degToUs_setPt]

theorem repeatable_storeAngle (k deg : Nat) : Repeatable (storeAngle k deg) where
  keeps_cfg s := by
    rcases storeAngle_cases k deg s with ⟨-, h⟩ | ⟨-, h⟩ <;> rw [h]
    · rfl
    · exact (repeatable_storeWidth _ _).keeps_cfg s
  again s := by
    rcases storeAngle_cases k deg s with ⟨hbig, h⟩ | ⟨hle, h⟩
    · rw [h, storeAngle, if_pos hbig]
      rfl
    · rw [h, storeAngle, if_neg (Nat.not_lt.mpr hle), degToUs_storeWidth]
      exact (repeatable_storeWidth _ _).again s

/-- The index test has the same outcome on the same instance. -/
theorem repeatable_indexed {body : State → State} (hb : Repeatable body) (idx : Byte) (v : Option Half) :
    Repeatable fun s => indexed idx v s body where
  keeps_cfg s := by
    rcases Nat.lt_or_ge idx.toNat s.cfg.n with hlt | hge
    · rw [indexed_of_lt hlt]
      exact hb.keeps_cfg s
    · rw [indexed_of_ge hge, raise_cfg]
  again s := by
    rcases Nat.lt_or_ge idx.toNat s.cfg.n with hlt | hge
    · rw [indexed_of_lt hlt, indexed_of_lt (by rwa [hb.keeps_cfg])]
      exact hb.again s
    · rw [indexed_of_ge hge]
      exact indexed_of_ge hge

/-! ## Host steps done twice (R55, R56) -/

/-- After the first step either a reset is pending and the Host waits (log 6), or the body runs again. -/
theorem hostStep_again {body : State → State} (hb : Repeatable body) (h : hostStep s body = .next t) :
    hostStep t body = .next t := by
  obtain ⟨hv, ⟨-, rfl⟩ | ⟨-, rfl⟩⟩ := hostStep_eq_next.mp h
  · exact h
  · have hv' : (body s).cfg.valid = true := by rwa [hb.keeps_cfg]
    cases hr : (body s).rstp with
    | true => exact hostStep_of_pending hv' hr
    | false => rw [hostStep_of_free hv' hr, hb.again]

/-- Every Host instruction is a Host step whose body may be repeated. -/
theorem exec_host_repeatable (hh : i.isHost = true) :
    ∃ body, Repeatable body ∧ ∀ s, exec i s = hostStep s body := by
  cases i with
  | rdReset | wrResetZ | rdEnable | rdPosition | rdTicks | rdUndef | wrUndef | opUndef7 | opUndef8F =>
    exact ⟨_, repeatable_withAnswer fun _ _ => rfl, fun _ => rfl⟩
  | wrResetNz => exact ⟨_, repeatable_commandedReset, fun _ => rfl⟩
  | wrEnable => exact ⟨_, repeatable_setEn _ _, fun _ => rfl⟩
  | wrPosition => exact ⟨_, repeatable_storeAngle _ _, fun _ => rfl⟩
  | wrTicks => exact ⟨_, repeatable_setPt _ _, fun _ => rfl⟩
  | enable | disable => exact ⟨_, repeatable_indexed (repeatable_setEn _ _) _ _, fun _ => rfl⟩
  | setPos => exact ⟨_, repeatable_indexed (repeatable_storeAngle _ _) _ _, fun _ => rfl⟩
  | setUs => exact ⟨_, repeatable_indexed (repeatable_storeWidth _ _) _ _, fun _ => rfl⟩
  | isEnabled | getPos | getUs =>
    exact ⟨_, repeatable_indexed (repeatable_withAnswer fun _ _ => rfl) _ _, fun _ => rfl⟩
  | _ => exact absurd hh Bool.false_ne_true

/-- Every Host instruction done twice leaves the state of the first. -/
theorem exec_host_again (hh : i.isHost = true) (h : exec i s = .next t) : exec i t = .next t := by
  obtain ⟨body, hb, hexec⟩ := exec_host_repeatable hh
  rw [hexec] at h ⊢
  exact hostStep_again hb h

/-- A read is a Host instruction that writes no field of a record and starts no reset. -/
theorem isRead_host (hread : isRead i = true) :
    i.isHost = true ∧ enableTarget? i = none ∧ pulseTarget? i = none ∧ ∀ d, i ≠ .wrResetNz d := by
  cases i with
  | rdReset | rdEnable | rdPosition | rdTicks | rdUndef | isEnabled | getPos | getUs =>
    exact ⟨rfl, rfl, rfl, nofun⟩
  | _ => exact absurd hread Bool.false_ne_true

/-- A Host instruction without a target writes nothing but the answer. -/
theorem exec_read_onlyAnswered (hread : isRead i = true) (h : exec i s = .next t) : onlyAnswered s t := by
  obtain ⟨hh, hen, hpt, hreset⟩ := isRead_host hread
  obtain ⟨-, ⟨-, rfl⟩ | ⟨-, ⟨d, hd, -⟩ | ⟨a, rfl⟩ | ⟨k, v, hk, -⟩ | ⟨k, v, hk, -⟩⟩⟩ := exec_host_cases hh h
  · exact onlyAnswered_refl _
  · exact absurd hd (hreset d)
  · exact onlyAnswered_withAnswer s a
  · exact absurd (hen.symm.trans hk) nofun
  · exact absurd (hpt.symm.trans hk) nofun

/-- Settles O57: a read only answers, and every Host instruction may be repeated. -/
theorem readsHaveNoSideEffect : Obligations.ReadsHaveNoSideEffect := by
  intro i s t hread h
  obtain ⟨hh, -⟩ := isRead_host hread
  exact ⟨exec_read_onlyAnswered hread h, exec_host_again hh h⟩

/-- A register write runs the instruction its address and datum decode to. -/
theorem regWrite_eq_exec (addr v : Byte) (s : State) :
    regWrite addr v s = exec (decodeRegWrite s.cfg addr v) s := by
  rw [regWrite, decodeReg, regIsWrite_regWord, if_pos rfl, regAddr_regWord, regData_regWord]

/-- Settles O58: the second write decodes as the first, on the same instance, and repeats it. -/
theorem writesAreIdempotent : Obligations.WritesAreIdempotent := by
  intro s t addr v h
  rw [regWrite_eq_exec] at h ⊢
  rw [exec_keeps_cfg h]
  exact exec_host_again (decodeRegWrite_isHost s.cfg addr v) h

end Sys2Proof.Machine
end

section
/-! SUPPORT. The statements of spec/30_encoding.md: a word and its instruction carry the same bits, what a register
read of each address answers, the unassigned opcodes, and the free run and the `next` of R82. -/

namespace Sys2Proof

variable {p : Params} {pt a : Byte} {k : Nat}

/-! ## A word is its fields (R71, R72) -/

theorem regWord_fields (w : BitVec 17) : regWord (regIsWrite w) (regAddr w) (regData w) = w := by
  refine BitVec.eq_of_getLsbD_eq fun i hi => ?_
  rw [regWord_getLsbD, regData, regAddr, BitVec.getLsbD_extractLsb', BitVec.getLsbD_extractLsb']
  split_ifs with hdata haddr
  · simp [hdata]
  · simp [haddr, show 8 + (i - 8) = i by omega]
  · obtain rfl : i = 16 := by omega
    simp [regIsWrite]

theorem opWord_fields (w : BitVec 28) : opWord (opCode w) (opIdx w) (opArg w) = w := by
  refine BitVec.eq_of_getLsbD_eq fun i hi => ?_
  rw [opWord_getLsbD, opArg, opIdx, opCode, BitVec.getLsbD_extractLsb', BitVec.getLsbD_extractLsb',
    BitVec.getLsbD_extractLsb']
  split_ifs with harg hidx
  · simp [harg]
  · simp [hidx, show 16 + (i - 16) = i by omega]
  · simp [show i - 16 - 8 < 4 by omega, show 24 + (i - 16 - 8) = i by omega]

/-! ## The address decoder on a legal map (R74, R75) -/

@[simp] theorem classify_addrReset (p : Params) : classify p p.addrReset = .reset := if_pos rfl

theorem classify_of_enable (hv : p.valid = true) (hk : k < p.n) (ha : a.toNat = p.baseEnable.toNat + k) :
    classify p a = .enable k := by
  have hmap := Params.map_of_valid hv
  rw [classify, if_neg (by rintro rfl; omega), if_pos (inRange_iff.mpr (by omega)), ha, Nat.add_sub_cancel_left]

theorem classify_of_position (hv : p.valid = true) (hk : k < p.n) (ha : a.toNat = p.basePosition.toNat + k) :
    classify p a = .position k := by
  have hmap := Params.map_of_valid hv
  rw [classify, if_neg (by rintro rfl; omega), if_neg (mt inRange_iff.mp (by omega)),
    if_pos (inRange_iff.mpr (by omega)), ha, Nat.add_sub_cancel_left]

theorem classify_of_ticks (hv : p.valid = true) (hk : k < p.n) (ha : a.toNat = p.baseTicks.toNat + k) :
    classify p a = .ticks k := by
  have hmap := Params.map_of_valid hv
  rw [classify, if_neg (by rintro rfl; omega), if_neg (mt inRange_iff.mp (by omega)),
    if_neg (mt inRange_iff.mp (by omega)), if_pos (inRange_iff.mpr (by omega)), ha, Nat.add_sub_cancel_left]

theorem outsideMap_iff_classify : p.outsideMap a = true ↔ classify p a = .undef := by
  refine ⟨classify_of_outsideMap, fun h => ?_⟩
  rcases classify_cases p a with ⟨h', -⟩ | ⟨_, h', -⟩ | ⟨_, h', -⟩ | ⟨_, h', -⟩ | ⟨-, hout⟩
  case inr.inr.inr.inr => exact hout
  all_goals exact nomatch h.symm.trans h'

/-- The channel read off an address leads back to that address. -/
theorem channelAddr_ofNat {b : Byte} (hv : p.valid = true) (hk : k < p.n) (ha : a.toNat = b.toNat + k) :
    channelAddr b (BitVec.ofNat 4 k) = a := by
  obtain ⟨-, hn⟩ := Params.n_le_of_valid hv
  have hlt := a.isLt
  refine BitVec.eq_of_toNat_eq ?_
  simp only [channelAddr, BitVec.toNat_add, BitVec.toNat_setWidth, BitVec.toNat_ofNat]
  omega

theorem isChannel_ofNat (hv : p.valid = true) (hk : k < p.n) : p.isChannel (BitVec.ofNat 4 k) = true := by
  obtain ⟨-, hn⟩ := Params.n_le_of_valid hv
  rw [Params.isChannel, decide_eq_true_eq, BitVec.toNat_ofNat, Nat.mod_eq_of_lt (by omega)]
  exact hk

/-! ## Encoding what was decoded -/

@[simp] theorem decodeReg_read (p : Params) (addr data : Byte) :
    decodeReg p (regWord false addr data) = decodeRegRead p addr data := by
  rw [decodeReg, regIsWrite_regWord, if_neg Bool.false_ne_true, regAddr_regWord, regData_regWord]

@[simp] theorem decodeReg_write (p : Params) (addr data : Byte) :
    decodeReg p (regWord true addr data) = decodeRegWrite p addr data := by
  rw [decodeReg, regIsWrite_regWord, if_pos rfl, regAddr_regWord, regData_regWord]

/-- The encodings under `p` can say the instruction, and `w` is its word. -/
def Instr.SaidBy (p : Params) (pt : Byte) (w : PortWord) (i : Instr) : Prop :=
  i.wellFormed p pt = true ∧ encode p i = w

theorem decodeRegRead_saidBy (hv : p.valid = true) (pt addr data : Byte) :
    (decodeRegRead p addr data).SaidBy p pt (.reg (regWord false addr data)) := by
  rw [decodeRegRead]
  rcases classify_cases p addr with ⟨hc, rfl⟩ | ⟨k, hc, hk, ha⟩ | ⟨k, hc, hk, ha⟩ | ⟨k, hc, hk, ha⟩ | ⟨hc, hout⟩ <;>
    rw [hc]
  case inl => exact ⟨rfl, rfl⟩
  case inr.inr.inr.inr => exact ⟨hout, rfl⟩
  all_goals exact ⟨isChannel_ofNat hv hk, by rw [encode, channelAddr_ofNat hv hk ha]⟩

theorem decodeRegWrite_saidBy (hv : p.valid = true) (pt addr data : Byte) :
    (decodeRegWrite p addr data).SaidBy p pt (.reg (regWord true addr data)) := by
  rw [decodeRegWrite]
  rcases classify_cases p addr with ⟨hc, rfl⟩ | ⟨k, hc, hk, ha⟩ | ⟨k, hc, hk, ha⟩ | ⟨k, hc, hk, ha⟩ | ⟨hc, hout⟩ <;>
    rw [hc]
  case inl =>
    by_cases hz : data = 0#8
    · subst hz
      exact ⟨rfl, rfl⟩
    · simp [hz, Instr.SaidBy, Instr.wellFormed, encode]
  case inr.inr.inr.inr => exact ⟨hout, rfl⟩
  all_goals exact ⟨isChannel_ofNat hv hk, by rw [encode, channelAddr_ofNat hv hk ha]⟩

theorem decodeReg_saidBy (hv : p.valid = true) (pt : Byte) (w : BitVec 17) :
    (decodeReg p w).SaidBy p pt (.reg w) := by
  rw [← regWord_fields w]
  cases regIsWrite w with
  | false =>
    rw [decodeReg_read]
    exact decodeRegRead_saidBy hv ..
  | true =>
    rw [decodeReg_write]
    exact decodeRegWrite_saidBy hv ..

theorem opWord_of_opCode {op : BitVec 4} {w : BitVec 28} (h : opCode w = op) :
    opWord op (opIdx w) (opArg w) = w := by
  rw [← h, opWord_fields]

/-- The opcodes from 8 on are a 1 and the three bits that OP.UNDEF.8_F carries (R78). -/
theorem one_append_low {op : BitVec 4} (h : 8 ≤ op.toNat) : 1#1 ++ op.extractLsb' 0 3 = op := by
  revert op
  decide

theorem decodeOp_saidBy (p : Params) (pt : Byte) (w : BitVec 28) : (decodeOp w).SaidBy p pt (.op w) := by
  unfold decodeOp
  split_ifs with h0 h1 h2 h3 h4 h5 h6 h7
  case neg =>
    have hhigh : 8 ≤ (opCode w).toNat := by bv_omega
    exact ⟨rfl, by rw [encode, one_append_low hhigh, opWord_fields]⟩
  all_goals exact ⟨rfl, congrArg PortWord.op (opWord_of_opCode (by assumption))⟩

/-- The word of a row is the code of its phase (R73). -/
theorem encode_rowInstr (p : Params) (r : Row) : encode p r.instr = .ph r.phase.code := by
  cases r <;> rfl

/-- A row can stand at the port exactly when its phase selects it at the pulse the handler sees (R125). -/
theorem rowInstr_wellFormed_iff {r : Row} : r.instr.wellFormed p pt = true ↔ rowOf r.phase pt = r := by
  cases r with
  | setPinLowShort | setPinLowLong =>
    cases hl : pulseIsLong pt <;> simp [Row.instr, Instr.wellFormed, Row.phase, rowOf, hl]
  | setPinHigh | waitPreRoll | waitFrameEnd => exact ⟨fun _ => rfl, fun _ => rfl⟩

theorem decodePh_saidBy (p : Params) (pt : Byte) (w : BitVec 2) : (decodePh pt w).SaidBy p pt (.ph w) := by
  refine ⟨rowInstr_wellFormed_iff.mpr ?_, ?_⟩
  · rw [rowOf_phase]
  · rw [decodePh, encode_rowInstr, rowOf_phase, code_phaseOfCode]

theorem decodeEv_saidBy (p : Params) (pt : Byte) (w : BitVec 1) : (decodeEv w).SaidBy p pt (.ev w) := by
  rcases BitVec.eq_zero_or_eq_one w with rfl | rfl
  · exact ⟨rfl, rfl⟩
  · exact ⟨rfl, rfl⟩

/-- Settles O6: one lemma per format. -/
theorem encodingADecodedWordGivesItBack : Obligations.EncodingADecodedWordGivesItBack := by
  intro p pt w hv
  cases w with
  | reg w => exact decodeReg_saidBy hv pt w
  | op w => exact decodeOp_saidBy p pt w
  | ph w => exact decodePh_saidBy p pt w
  | ev w => exact decodeEv_saidBy p pt w

/-! ## Decoding what was encoded -/

/-- The three ranges fit the address space, so a channel's address is the base plus the channel. -/
theorem channelAddr_toNat_of_valid {c : BitVec 4} (hv : p.valid = true) (hc : p.isChannel c = true) :
    c.toNat < p.n ∧
      (channelAddr p.baseEnable c).toNat = p.baseEnable.toNat + c.toNat ∧
      (channelAddr p.basePosition c).toNat = p.basePosition.toNat + c.toNat ∧
      (channelAddr p.baseTicks c).toNat = p.baseTicks.toNat + c.toNat := by
  obtain ⟨⟨hen, hpos, htk⟩, -⟩ := Params.map_of_valid hv
  have hlt : c.toNat < p.n := of_decide_eq_true hc
  exact ⟨hlt, channelAddr_toNat hlt hen, channelAddr_toNat hlt hpos, channelAddr_toNat hlt htk⟩

theorem classify_channelAddr {c : BitVec 4} (hv : p.valid = true) (hc : p.isChannel c = true) :
    classify p (channelAddr p.baseEnable c) = .enable c.toNat ∧
      classify p (channelAddr p.basePosition c) = .position c.toNat ∧
      classify p (channelAddr p.baseTicks c) = .ticks c.toNat := by
  obtain ⟨hlt, hen, hpos, htk⟩ := channelAddr_toNat_of_valid hv hc
  exact ⟨classify_of_enable hv hlt hen, classify_of_position hv hlt hpos, classify_of_ticks hv hlt htk⟩

theorem decode_encode_row {r : Row} (hwf : r.instr.wellFormed p pt = true) :
    decode p pt (encode p r.instr) = r.instr := by
  rw [encode_rowInstr, decode, decodePh, phaseOfCode_code, rowInstr_wellFormed_iff.mp hwf]

/-- No operation has an opcode that begins with a 1 (R77). -/
theorem decodeOp_opWord_high (low : BitVec 3) (idx : Byte) (arg : Half) :
    decodeOp (opWord (1#1 ++ low) idx arg) = .opUndef8F low idx arg := by
  have hne : ∀ op : BitVec 4, op.toNat < 8 → 1#1 ++ low ≠ op := by
    revert low
    decide
  have hlow : (1#1 ++ low).extractLsb' 0 3 = low := by
    revert low
    decide
  simp [decodeOp, hne, hlow]

/-- Settles O5: the address decoder finds the channel of every channel's address, and nothing else loses a bit. -/
theorem decodingAnEncodedInstructionGivesItBack : Obligations.DecodingAnEncodedInstructionGivesItBack := by
  intro p pt i hv hwf
  cases i with
  | rdReset d => simp [encode, decode, decodeRegRead]
  | wrResetZ => simp [encode, decode, decodeRegWrite]
  | wrResetNz d =>
    have hd : d ≠ 0#8 := bne_iff_ne.mp hwf
    simp [encode, decode, decodeRegWrite, hd]
  | rdEnable c d | rdPosition c d | rdTicks c d =>
    simp [encode, decode, decodeRegRead, classify_channelAddr hv hwf]
  | wrEnable c d | wrPosition c d | wrTicks c d =>
    simp [encode, decode, decodeRegWrite, classify_channelAddr hv hwf]
  | rdUndef addr d => simp [encode, decode, decodeRegRead, classify_of_outsideMap hwf]
  | wrUndef addr d => simp [encode, decode, decodeRegWrite, classify_of_outsideMap hwf]
  | enable | disable | isEnabled | setPos | getPos | setUs | getUs | opUndef7 =>
    simp [encode, decode, decodeOp]
  | opUndef8F low idx arg => exact decodeOp_opWord_high low idx arg
  | isrSetPinHigh => exact decode_encode_row (r := .setPinHigh) hwf
  | isrWaitPreRoll => exact decode_encode_row (r := .waitPreRoll) hwf
  | isrSetPinLowShort => exact decode_encode_row (r := .setPinLowShort) hwf
  | isrSetPinLowLong => exact decode_encode_row (r := .setPinLowLong) hwf
  | isrWaitFrameEnd => exact decode_encode_row (r := .waitFrameEnd) hwf
  | tick | por => rfl

/-- Settles O7: each word is a number written out, and so is the reference map. -/
theorem sampleWordsDecodeAsListed : Obligations.SampleWordsDecodeAsListed :=
  fun _ _ _ _ => ⟨rfl, rfl, rfl, rfl, rfl, rfl, rfl, rfl, rfl, rfl⟩

end Sys2Proof

namespace Sys2Proof.Machine

variable {s t u : State} {a : Byte} {k m n : Nat}

/-! ## A register read (R74, R150) -/

/-- What a register read of `addr` answers: the byte the map lists, with a report where the address is undefined. -/
def State.readAnswer (s : State) (addr : Byte) : Answer :=
  if s.cfg.outsideMap addr then raised .unrecognizedAddress addr.toNat (some (s.regByte addr)) none
  else answerByte (s.regByte addr)

theorem readAnswer_status (s : State) (addr : Byte) :
    (s.readAnswer addr).status = if s.cfg.outsideMap addr then .unrecognizedAddress else .ok := by
  unfold State.readAnswer
  split <;> rfl

@[simp] theorem readAnswer_rdata (s : State) (addr : Byte) : (s.readAnswer addr).rdata = some (s.regByte addr) := by
  unfold State.readAnswer
  split <;> rfl

theorem regByte_of_enable (hv : s.cfg.valid = true) (hk : k < s.cfg.n)
    (ha : a.toNat = s.cfg.baseEnable.toNat + k) : s.regByte a = enableByte (s.chan k) := by
  rw [State.regByte, classify_of_enable hv hk ha]

theorem regByte_of_position (hv : s.cfg.valid = true) (hk : k < s.cfg.n)
    (ha : a.toNat = s.cfg.basePosition.toNat + k) : s.regByte a = positionByte s.cfg.tickUs (s.chan k) := by
  rw [State.regByte, classify_of_position hv hk ha]

theorem regByte_of_ticks (hv : s.cfg.valid = true) (hk : k < s.cfg.n)
    (ha : a.toNat = s.cfg.baseTicks.toNat + k) : s.regByte a = (s.chan k).pt := by
  rw [State.regByte, classify_of_ticks hv hk ha]

/-- Neither the reset address nor an undefined one holds data (R151, R160). -/
theorem regByte_of_noData (h : a = s.cfg.addrReset ∨ s.cfg.outsideMap a = true) : s.regByte a = noDataByte := by
  rcases h with rfl | hout
  · rw [State.regByte, classify_addrReset]
  · rw [State.regByte, classify_of_outsideMap hout]

/-- An address the map lists is not undefined. -/
theorem readAnswer_of_classify_ne (h : classify s.cfg a ≠ .undef) : s.readAnswer a = answerByte (s.regByte a) :=
  if_neg (mt outsideMap_iff_classify.mp h)

/-- RegRead, whatever the address decodes to, answers and does nothing else. -/
theorem regRead_eq (hv : s.cfg.valid = true) (hr : s.rstp = false) (addr : Byte) :
    regRead addr s = .next (s.withAnswer (s.readAnswer addr)) := by
  obtain ⟨-, hn⟩ := Params.n_le_of_valid hv
  have channel {k : Nat} (hk : k < s.cfg.n) : (BitVec.ofNat 4 k).toNat = k := by
    rw [BitVec.toNat_ofNat, Nat.mod_eq_of_lt (by omega)]
  rw [regRead, decodeReg_read, decodeRegRead]
  rcases classify_cases s.cfg addr with ⟨hc, -⟩ | ⟨k, hc, hk, -⟩ | ⟨k, hc, hk, -⟩ | ⟨k, hc, hk, -⟩ | ⟨hc, hout⟩ <;>
    simp only [hc]
  · rw [exec_rdReset _ hv hr, readAnswer_of_classify_ne (by simp [hc]), State.regByte, hc]
  · rw [exec_rdEnable _ _ hv hr, readAnswer_of_classify_ne (by simp [hc]), State.regByte, hc, channel hk]
  · rw [exec_rdPosition _ _ hv hr, readAnswer_of_classify_ne (by simp [hc]), State.regByte, hc, channel hk]
  · rw [exec_rdTicks _ _ hv hr, readAnswer_of_classify_ne (by simp [hc]), State.regByte, hc, channel hk]
  · rw [exec_rdUndef _ _ hv hr, State.readAnswer, if_pos hout, State.regByte, hc, State.raise]

/-- Settles O18: the read answers the register's byte, which the class of the address lists. -/
theorem registerReadFollowsTheMap : Obligations.RegisterReadFollowsTheMap := by
  intro s addr hi hr
  have hv := hi.instance_valid
  refine ⟨_, s.readAnswer addr, regRead_eq hv hr addr, onlyAnswered_withAnswer s _, rfl, readAnswer_status s addr, ?_⟩
  simp only [readAnswer_rdata, Option.some.injEq]
  exact ⟨regByte_of_noData, fun k hk =>
    ⟨regByte_of_enable hv hk, regByte_of_ticks hv hk, regByte_of_position hv hk⟩⟩

/-! ## The unassigned opcodes (R78) -/

/-- Settles O32: the two rows only report. -/
theorem unassignedOpcodesReport : Obligations.UnassignedOpcodesReport :=
  fun _ idx arg low hv hr =>
    ⟨⟨_, exec_opUndef7 idx arg hv hr, onlyAnswered_raise .., rfl⟩,
      ⟨_, exec_opUndef8F low idx arg hv hr, onlyAnswered_raise .., rfl⟩⟩

/-! ## Left to itself, the machine runs the schedule of `run` (R82) -/

/-- Settles O12: with no turn listed, the flag decides between the handler's turn and the timer's. -/
theorem freeRunningIsTheZeroLatencySchedule : Obligations.FreeRunningIsTheZeroLatencySchedule := by
  intro s hv hs
  have henv : { s.env with sched := [], late := 0 } = { s.env with late := 0 } := by rw [← hs]
  refine ⟨fun hm => ?_, fun hm => ?_⟩
  · rw [step_of_handlerTurn hv (pick_nil_flag hs hm), henv]
  · rw [step_of_tickTurn hv (pick_nil_tick hs hm), hm, if_neg Bool.false_ne_true, henv]

/-! ## Ticks until the flag rises (R111, R113, R116) -/

theorem waitTicks_pos (c v : Nat) : 0 < waitTicks c v := Nat.succ_pos _

theorem waitTicks_le (c v : Nat) : waitTicks c v ≤ 256 := Nat.mod_lt _ (by decide)

/-- Counting up from `c`, the first tick to meet `v` is number `waitTicks c v`. -/
theorem match_iff_waitTicks {c v : Byte} (hm : m < waitTicks c.toNat v.toNat) :
    c + BitVec.ofNat 8 (m + 1) = v ↔ m + 1 = waitTicks c.toNat v.toNat := by
  have hc := c.isLt
  have hv := v.isLt
  unfold waitTicks at *
  rw [← BitVec.toNat_inj, BitVec.toNat_add, BitVec.toNat_ofNat]
  omega

/-- `s` after `m` ticks that neither pass the match nor end the reset delay: both counts have moved, and the flag is
set exactly where the match is reached. -/
def State.waited (s : State) (m : Nat) : State :=
  { s with
    cnt := s.cnt + BitVec.ofNat 8 m, rstc := s.rstc - m, mf := decide (m = waitTicks s.cnt.toNat s.cmp.toNat) }

theorem waited_zero (hm : s.mf = false) : s.waited 0 = s := by
  have hw : decide (0 = waitTicks s.cnt.toNat s.cmp.toNat) = s.mf := by
    rw [hm, decide_eq_false_iff_not]
    exact (waitTicks_pos _ _).ne
  rw [State.waited, hw]
  simp

/-- One more tick of the wait, which the reset delay does not end. -/
theorem exec_tick_waited (hi : s.Inv) (hm : m < waitTicks s.cnt.toNat s.cmp.toNat)
    (hpend : s.rstp = true → m + 1 < s.rstc) : exec .tick (s.waited m) = .next (s.waited (m + 1)) := by
  have hv := hi.instance_valid
  have hflag : matchFlag (decide (m = waitTicks s.cnt.toNat s.cmp.toNat)) (s.cnt + BitVec.ofNat 8 (m + 1)) s.cmp =
      decide (m + 1 = waitTicks s.cnt.toNat s.cmp.toNat) := by
    rw [Bool.eq_iff_iff, matchFlag_eq_true, match_iff_waitTicks hm]
    simp [hm.ne]
  have hcnt : s.cnt + BitVec.ofNat 8 m + 1#8 = s.cnt + BitVec.ofNat 8 (m + 1) := by
    rw [BitVec.add_assoc, BitVec.ofNat_add]
  cases hr : s.rstp with
  | false =>
    have hrstc : s.rstc - m = s.rstc - (m + 1) := by rw [hi.idle_count hr, Nat.zero_sub, Nat.zero_sub]
    rw [exec_tick_count (s := s.waited m) hv hr]
    simp only [State.count, State.waited, hcnt, hflag, hrstc]
  | true =>
    have hlt := hpend hr
    rw [exec_tick_pending (s := s.waited m) hv hr (by simp only [State.waited]; omega)]
    simp only [State.count, State.waited, hcnt, hflag, Nat.sub_sub]

/-- The ticks of the wait, up to the match or to the last tick of the reset delay. -/
theorem ticks_eq_waited (hi : s.Inv) (hclear : s.mf = false) (hm : m ≤ waitTicks s.cnt.toNat s.cmp.toNat)
    (hpend : s.rstp = true → m < s.rstc) : ticks m s = .next (s.waited m) := by
  induction m with
  | zero => rw [ticks_zero, waited_zero hclear]
  | succ m ih =>
    rw [ticks_succ, ih (Nat.le_of_succ_le hm) fun hr => Nat.lt_of_succ_lt (hpend hr), andThen_next]
    exact exec_tick_waited hi hm hpend

/-- Before the match the flag is clear. -/
theorem ticks_clear_of_lt (hi : s.Inv) (hclear : s.mf = false) (hm : m < waitTicks s.cnt.toNat s.cmp.toNat)
    (hpend : s.rstp = true → m < s.rstc) : ∃ v, ticks m s = .next v ∧ v.mf = false :=
  ⟨_, ticks_eq_waited hi hclear hm.le hpend, decide_eq_false hm.ne⟩

/-- The tick that ends the delay of a pending reset resets, if no match came before it (R120). -/
theorem ticks_rstc_eq_resetNow (hi : s.Inv) (hclear : s.mf = false) (hr : s.rstp = true)
    (hle : s.rstc ≤ waitTicks s.cnt.toNat s.cmp.toNat) : ticks s.rstc s = .next s.resetNow := by
  obtain ⟨hpos, -⟩ := hi.pending_count hr
  obtain ⟨m, hm⟩ := Nat.exists_eq_add_of_le' hpos
  rw [hm, ticks_succ, ticks_eq_waited hi hclear (by omega) (by omega), andThen_next,
    exec_tick_reset (s := s.waited m) hi.instance_valid hr (by simp only [State.waited]; omega)]
  rfl

theorem ticks_keeps_inv (hi : s.Inv) (h : ticks n s = .next t) : t.Inv := by
  induction n generalizing t with
  | zero =>
    cases h
    exact hi
  | succ n ih =>
    obtain ⟨u, hu, ht⟩ := andThen_eq_next.mp h
    exact exec_keeps_inv (ih hu) ht

/-- `n` ticks lead from `s` to `u`, and the last of them is the first to leave the flag set. -/
structure FlagRises (n : Nat) (s u : State) : Prop where
  clear_before : ∀ m < n, ∃ v, ticks m s = .next v ∧ v.mf = false
  reached : ticks n s = .next u
  flag : u.mf = true

theorem flagRises_zero (hm : s.mf = true) : FlagRises 0 s s := ⟨nofun, rfl, hm⟩

/-- The flag rises at the match, where no reset comes before it (R113). -/
theorem flagRises_waitTicks (hi : s.Inv) (hclear : s.mf = false)
    (hpend : s.rstp = true → waitTicks s.cnt.toNat s.cmp.toNat < s.rstc) :
    FlagRises (waitTicks s.cnt.toNat s.cmp.toNat) s (s.waited (waitTicks s.cnt.toNat s.cmp.toNat)) where
  clear_before _ hm := ticks_clear_of_lt hi hclear hm fun hr => hm.trans (hpend hr)
  reached := ticks_eq_waited hi hclear le_rfl hpend
  flag := decide_eq_true rfl

theorem FlagRises.after_ticks (h : FlagRises n t u) (hclear : ∀ m < k, ∃ v, ticks m s = .next v ∧ v.mf = false)
    (ht : ticks k s = .next t) : FlagRises (k + n) s u where
  clear_before m hm := by
    rcases Nat.lt_or_ge m k with hlt | hge
    · exact hclear m hlt
    · obtain ⟨j, rfl⟩ := Nat.exists_eq_add_of_le hge
      rw [ticks_add, ht, andThen_next]
      exact h.clear_before j (by omega)
  reached := by rw [ticks_add, ht, andThen_next, h.reached]
  flag := h.flag

/-- The flag rises within 256 ticks, or within 256 ticks of a reset that comes before the match (R116, R120). -/
theorem exists_flagRises (hi : s.Inv) : ∃ n u, n ≤ 512 ∧ (s.rstp = false → n ≤ 256) ∧ FlagRises n s u := by
  cases hm : s.mf with
  | true => exact ⟨0, s, Nat.zero_le _, fun _ => Nat.zero_le _, flagRises_zero hm⟩
  | false =>
    have hw := waitTicks_le s.cnt.toNat s.cmp.toNat
    by_cases hreset : s.rstp = true ∧ s.rstc ≤ waitTicks s.cnt.toNat s.cmp.toNat
    · obtain ⟨hr, hle⟩ := hreset
      have hrise := flagRises_waitTicks (resetNow_inv (s := s) hi.instance_valid) rfl nofun
      have hbefore : ∀ m < s.rstc, ∃ v, ticks m s = .next v ∧ v.mf = false := fun m hlt =>
        ticks_clear_of_lt hi hm (hlt.trans_le hle) fun _ => hlt
      refine ⟨_, _, ?_, fun hfree => ?_, hrise.after_ticks hbefore (ticks_rstc_eq_resetNow hi hm hr hle)⟩
      · have hw' := waitTicks_le s.resetNow.cnt.toNat s.resetNow.cmp.toNat
        omega
      · exact absurd (hr.symm.trans hfree) Bool.noConfusion
    · have hpend : s.rstp = true → waitTicks s.cnt.toNat s.cmp.toNat < s.rstc := fun hr =>
        Nat.lt_of_not_le fun hle => hreset ⟨hr, hle⟩
      exact ⟨_, _, hw.trans (by decide), fun _ => hw, flagRises_waitTicks hi hm hpend⟩

/-- Settles O48: where the flag has risen the handler has a step, and `next` is the ticks up to there with it. -/
theorem theHandlerRunsAgainWithin256Ticks : Obligations.TheHandlerRunsAgainWithin256Ticks := by
  intro s hi
  obtain ⟨n, u, hn, hfree, hrise⟩ := exists_flagRises hi
  have hu := ticks_keeps_inv hi hrise.reached
  obtain ⟨t, hisr, hclear, -⟩ := isr_of_flag hu.instance_valid hrise.flag
  have hnext : nextEvent s = isr u := nextWithin_of_ticks hn hrise.clear_before hrise.reached hrise.flag
  exact ⟨n, u, t, hn, hfree, hrise.clear_before, hrise.reached, hrise.flag, hisr, hclear, hnext.trans hisr⟩

end Sys2Proof.Machine
end

section
/-! SUPPORT. The statements of spec/40_channel_table_ops.md, with the two register transactions that share the
conversions: what each operation answers and writes on a channel of the instance, and what is read back after a
write. -/

namespace Sys2Proof.Machine

variable {s t : State} {k us deg tickUs : Nat}

/-! ## Ticks and microseconds (R91, R92) -/

/-- A width from 64 to 319 ticks is accepted. -/
theorem exists_usToTicks (hlow : 64 ≤ us / tickUs) (hhigh : us / tickUs ≤ 319) :
    ∃ p, usToTicks tickUs us = some p :=
  Option.ne_none_iff_exists'.mp fun hnone => by
    have hrejected := usToTicks_eq_none.mp hnone
    omega

/-- The way back loses the part of the width below a whole tick. -/
theorem ticksToUs_of_usToTicks {p : Byte} (h : usToTicks tickUs us = some p) :
    ticksToUs tickUs p = us / tickUs * tickUs := by
  obtain ⟨-, -, hq⟩ := usToTicks_eq_some.mp h
  rw [hq, ticksToUs]

/-- Settles O60: the formula on a byte, and what floor division by the tick loses. -/
theorem ticksToMicrosecondsInvertsWithinATick : Obligations.TicksToMicrosecondsInvertsWithinATick := by
  refine ⟨fun _ _ => rfl, rfl, rfl, fun p q hpq => ?_, fun p => ?_, fun tickUs us p htick h => ?_⟩
  · rw [ticksToUs, ticksToUs, hpq]
    omega
  · have hp := p.isLt
    simp only [ticksToUs, Config.preRollTicks]
    omega
  · rw [ticksToUs_of_usToTicks h]
    have hlost := Nat.lt_div_mul_add (a := us) htick
    exact ⟨rfl, by omega, Nat.div_mul_le_self us tickUs⟩

/-! ## The answers of the reads (R94, R97, R101) -/

/-- The saturation of R156 is what makes the angle a byte. -/
theorem positionByte_toNat (tickUs : Nat) (c : Channel) :
    (positionByte tickUs c).toNat = min (degreesOf tickUs c) 255 := by
  rw [positionByte, BitVec.toNat_ofNat, Nat.mod_eq_of_lt (by omega)]

/-- The saturation of R101 is what makes the angle 16 bits. -/
theorem positionHalf_toNat (tickUs : Nat) (c : Channel) :
    (positionHalf tickUs c).toNat = min (degreesOf tickUs c) 65535 := by
  rw [positionHalf, BitVec.toNat_ofNat, Nat.mod_eq_of_lt (by omega)]

/-! ## A channel of a sound state -/

theorem State.Inv.channel_lt (hi : s.Inv) (hk : k < s.cfg.n) : k < s.table.length :=
  hk.trans_eq hi.table_length.symm

/-- Every channel keeps the range of the instance (R25). -/
theorem State.Inv.channel_range (hi : s.Inv) (hk : k < s.cfg.n) :
    (s.chan k).minUs = s.cfg.rangeMinUs ∧ (s.chan k).maxUs = s.cfg.rangeMaxUs :=
  hi.ranges _ (chan_mem s (hi.channel_lt hk))

/-! ## The operations past the index test (R90) -/

section
variable {x : Byte} (a : Half) (hi : s.Inv) (hr : s.rstp = false) (hx : x.toNat < s.cfg.n)
include hi hr hx

theorem exec_enable_of_lt : exec (.enable x a) s = .next ((s.setEn x.toNat true).withAnswer answerDone) := by
  rw [exec_enable x a hi.instance_valid hr, indexed_of_lt hx]

theorem exec_disable_of_lt : exec (.disable x a) s = .next ((s.setEn x.toNat false).withAnswer answerDone) := by
  rw [exec_disable x a hi.instance_valid hr, indexed_of_lt hx]

theorem exec_isEnabled_of_lt :
    exec (.isEnabled x a) s = .next (s.withAnswer (answerValue (enableHalf (s.chan x.toNat)))) := by
  rw [exec_isEnabled x a hi.instance_valid hr, indexed_of_lt hx]

theorem exec_setPos_of_lt : exec (.setPos x a) s = .next (storeAngle x.toNat a.toNat s) := by
  rw [exec_setPos x a hi.instance_valid hr, indexed_of_lt hx]

theorem exec_getPos_of_lt :
    exec (.getPos x a) s = .next (s.withAnswer (answerValue (positionHalf s.cfg.tickUs (s.chan x.toNat)))) := by
  rw [exec_getPos x a hi.instance_valid hr, indexed_of_lt hx]

theorem exec_setUs_of_lt : exec (.setUs x a) s = .next (storeWidth x.toNat a.toNat s) := by
  rw [exec_setUs x a hi.instance_valid hr, indexed_of_lt hx]

theorem exec_getUs_of_lt :
    exec (.getUs x a) s = .next (s.withAnswer (answerValue (widthUs s.cfg.tickUs (s.chan x.toNat)))) := by
  rw [exec_getUs x a hi.instance_valid hr, indexed_of_lt hx]

end

/-! ## The enable bit (R95 to R97) -/

/-- Settles O26: both operations are one `EN` write inside the table. -/
theorem enableAndDisableWriteTheBit : Obligations.EnableAndDisableWriteTheBit := by
  intro s x a hi hr hx
  have hk := hi.channel_lt hx
  exact ⟨⟨_, exec_enable_of_lt a hi hr hx, wroteEnable_setEn _ true _ hk, rfl⟩,
    ⟨_, exec_disable_of_lt a hi hr hx, wroteEnable_setEn _ false _ hk, rfl⟩⟩

/-- Settles O27: the two outcomes of the index test. -/
theorem isEnabledReturnsTheBit : Obligations.IsEnabledReturnsTheBit := by
  intro s x a hi hr
  refine ⟨fun hx => ⟨_, exec_isEnabled_of_lt a hi hr hx, onlyAnswered_withAnswer .., rfl⟩, fun hx => ?_⟩
  rw [exec_isEnabled x a hi.instance_valid hr, indexed_of_ge hx]
  exact ⟨_, rfl, onlyAnswered_raise .., rfl⟩

/-! ## Writing a pulse (R91, R93, R98, R99) -/

/-- A width of fewer than 64 or more than 319 ticks is reported, not clamped (R91). -/
theorem storeWidth_of_rejected (h : us / s.cfg.tickUs < 64 ∨ 319 < us / s.cfg.tickUs) :
    storeWidth k us s = s.raise .invalidValue us none none := by
  rw [storeWidth, usToTicks_eq_none.mpr h]

/-- A width from 64 to 319 ticks is stored without the pre-roll. -/
theorem storeWidth_of_accepted (hk : k < s.table.length) (hlow : 64 ≤ us / s.cfg.tickUs)
    (hhigh : us / s.cfg.tickUs ≤ 319) :
    wrotePulse k (us / s.cfg.tickUs - 64) s (storeWidth k us s) ∧
      (storeWidth k us s).answer = some answerDone := by
  obtain ⟨p, hp⟩ := exists_usToTicks hlow hhigh
  obtain ⟨-, -, hq⟩ := usToTicks_eq_some.mp hp
  rw [storeWidth, hp, hq, Nat.add_sub_cancel]
  exact ⟨wrotePulse_setPt k p answerDone hk, rfl⟩

theorem storeAngle_of_gt (h : 180 < deg) : storeAngle k deg s = s.raise .invalidValue deg none none :=
  if_pos h

theorem storeAngle_of_le (h : deg ≤ 180) : storeAngle k deg s = storeWidth k (degToUs (s.chan k) deg) s :=
  if_neg (Nat.not_lt.mpr h)

/-- Settles O29: the width is stored or reported, by its ticks. -/
theorem setUsSetsTheWidth : Obligations.SetUsSetsTheWidth := by
  intro s x a hi hr hx
  rw [exec_setUs_of_lt a hi hr hx]
  refine ⟨fun hq => ?_, fun hlow hhigh => ⟨_, rfl, storeWidth_of_accepted (hi.channel_lt hx) hlow hhigh⟩⟩
  rw [storeWidth_of_rejected hq]
  exact ⟨_, rfl, onlyAnswered_raise .., rfl⟩

/-- What R98 asks of the outcome of a step from `s` that sets the angle `deg` of channel `k`: a report of the angle, a
report of its width, or the pulse of that width. -/
def SetsAngle (k deg : Nat) (s : State) (outcome : Result) : Prop :=
  (180 < deg → ∃ t, outcome = .next t ∧ onlyAnswered s t ∧ t.answer = some (raised .invalidValue deg none none)) ∧
  (deg ≤ 180 →
    degToUs (s.chan k) deg / s.cfg.tickUs < 64 ∨ 319 < degToUs (s.chan k) deg / s.cfg.tickUs →
    ∃ t, outcome = .next t ∧ onlyAnswered s t ∧
      t.answer = some (raised .invalidValue (degToUs (s.chan k) deg) none none)) ∧
  (deg ≤ 180 → 64 ≤ degToUs (s.chan k) deg / s.cfg.tickUs → degToUs (s.chan k) deg / s.cfg.tickUs ≤ 319 →
    ∃ t, outcome = .next t ∧ wrotePulse k (degToUs (s.chan k) deg / s.cfg.tickUs - 64) s t ∧
      t.answer = some answerDone)

theorem setsAngle_storeAngle (hi : s.Inv) (hk : k < s.cfg.n) (deg : Nat) :
    SetsAngle k deg s (.next (storeAngle k deg s)) := by
  refine ⟨fun hbig => ?_, fun hdeg hq => ?_, fun hdeg hlow hhigh => ?_⟩
  · rw [storeAngle_of_gt hbig]
    exact ⟨_, rfl, onlyAnswered_raise .., rfl⟩
  · rw [storeAngle_of_le hdeg, storeWidth_of_rejected hq]
    exact ⟨_, rfl, onlyAnswered_raise .., rfl⟩
  · rw [storeAngle_of_le hdeg]
    exact ⟨_, rfl, storeWidth_of_accepted (hi.channel_lt hk) hlow hhigh⟩

/-- Settles O28: past the index test the operation stores the angle of its argument. -/
theorem setPosSetsTheAngle : Obligations.SetPosSetsTheAngle := by
  intro s x a hi hr hx
  rw [exec_setPos_of_lt a hi hr hx]
  exact setsAngle_storeAngle hi hx a.toNat

/-- Settles O22: the transaction stores the angle of its datum. -/
theorem wrPositionSetsTheAngle : Obligations.WrPositionSetsTheAngle := by
  intro s k v hi hr hk
  rw [exec_wrPosition k v hi.instance_valid hr]
  exact setsAngle_storeAngle hi hk v.toNat

/-! ## Reading a pulse (R92, R94, R100, R101) -/

/-- Settles O30: a tick of at most 205 us keeps the width within 16 bits. -/
theorem getUsReturnsTheWidth : Obligations.GetUsReturnsTheWidth := by
  intro s x a hi hr hx
  obtain ⟨-, -, -, htick, -⟩ := Params.valid_iff.mp hi.instance_valid
  exact ⟨_, _, exec_getUs_of_lt a hi hr hx, onlyAnswered_withAnswer .., rfl, widthUs_toNat htick _⟩

/-- Settles O31: the answer is the angle of the pulse, saturated to 16 bits. -/
theorem getPosReturnsTheDegrees : Obligations.GetPosReturnsTheDegrees := by
  intro s x a hi hr hx
  exact ⟨_, _, exec_getPos_of_lt a hi hr hx, onlyAnswered_withAnswer .., rfl, positionHalf_toNat _ _⟩

/-- Settles O15: the answer is the angle of the pulse, saturated to a byte. -/
theorem rdPositionReturnsSaturatedDegrees : Obligations.RdPositionReturnsSaturatedDegrees := by
  intro s k d hi hr _
  exact ⟨_, _, exec_rdPosition k d hi.instance_valid hr, onlyAnswered_withAnswer .., rfl, positionByte_toNat _ _⟩

/-! ## Reading back what was written (R103) -/

/-- A pulse write leaves the instance and the pending reset alone. -/
theorem wrotePulse_keeps {v : Nat} (h : wrotePulse k v s t) : t.cfg = s.cfg ∧ t.rstp = s.rstp := by
  obtain ⟨rest, -⟩ := h
  exact ⟨(congrArg State.cfg rest :), (congrArg State.rstp rest :)⟩

/-- Settles O54: `SET_US` stores the whole ticks, and `GET_US` answers them in microseconds. -/
theorem readBackOfAWidth : Obligations.ReadBackOfAWidth := by
  intro s x us a hi hr hx hlow hhigh
  obtain ⟨-, hset⟩ := setUsSetsTheWidth s x us hi hr hx
  obtain ⟨t, ht, hpulse, -⟩ := hset hlow hhigh
  obtain ⟨hcfg, hrstp⟩ := wrotePulse_keeps hpulse
  obtain ⟨-, -, hpt, -⟩ := hpulse
  obtain ⟨u, v, hu, -, hanswer, hv⟩ :=
    getUsReturnsTheWidth t x a (exec_keeps_inv hi ht) (hrstp.trans hr) (hcfg ▸ hx)
  rw [hpt, hcfg, Nat.sub_add_cancel hlow] at hv
  obtain ⟨-, -, htick, -⟩ := Params.valid_iff.mp hi.instance_valid
  have hlost := Nat.lt_div_mul_add (a := us.toNat) htick
  have hle := Nat.div_mul_le_self us.toNat s.cfg.tickUs
  exact ⟨t, u, v, ht, hu, hanswer, hv, by omega, by omega⟩

/-- The channel has the default range, 544 to 2400 us (R7). -/
def Channel.hasDefaultRange (c : Channel) : Prop := c.minUs = 544#16 ∧ c.maxUs = 2400#16

theorem degToUs_default {c : Channel} (hc : c.hasDefaultRange) (deg : Nat) :
    degToUs c deg = 544 + deg * 1856 / 180 := by
  obtain ⟨hmin, hmax⟩ := hc
  simp [degToUs, hmin, hmax]

/-- On the default range the two cases of `us_to_deg` are one: at or below the minimum the quotient is 0. -/
theorem usToDeg_default {c : Channel} (hc : c.hasDefaultRange) (us : Nat) :
    usToDeg c us = ((us - 544) * 360 + 1856) / 3712 := by
  obtain ⟨hmin, hmax⟩ := hc
  simp only [usToDeg, hmin, hmax, BitVec.toNat_ofNat, Nat.reducePow, Nat.reduceMod, Nat.reduceSub, Nat.reduceMul]
  split <;> omega

/-- What the angle `deg` reads back as on the default range and tick: 544 us are whole ticks, so only the part of the
width above them is cut to whole ticks, and then taken to the nearest degree. -/
def readBackDegrees (deg : Nat) : Nat := (deg * 1856 / 180 / 8 * 8 * 360 + 1856) / 3712

/-- Every angle has a pulse on the default range and tick. -/
theorem ticks_of_degToUs_default {c : Channel} (hc : c.hasDefaultRange) (hdeg : deg ≤ 180) :
    64 ≤ degToUs c deg / 8 ∧ degToUs c deg / 8 ≤ 319 := by
  rw [degToUs_default hc]
  omega

/-- The pulse of the angle `deg`, taken back to degrees. -/
theorem usToDeg_ticksToUs_default {c : Channel} (hc : c.hasDefaultRange) {p : Byte}
    (hp : p.toNat + 64 = degToUs c deg / 8) : usToDeg c (ticksToUs 8 p) = readBackDegrees deg := by
  have hwhole : (544 + deg * 1856 / 180) / 8 * 8 - 544 = deg * 1856 / 180 / 8 * 8 := by omega
  rw [usToDeg_default hc, ticksToUs, hp, degToUs_default hc, hwhole, readBackDegrees]

/-- Less than 8 us are lost to whole ticks, which is less than a degree. -/
theorem readBackDegrees_eq_or (deg : Nat) : readBackDegrees deg = deg ∨ readBackDegrees deg + 1 = deg := by
  unfold readBackDegrees
  omega

/-- Every angle is accepted, and reads back as `readBackDegrees`. -/
theorem readBack_default {c : Channel} (hc : c.hasDefaultRange) (hdeg : deg ≤ 180) :
    ((usToTicks 8 (degToUs c deg)).map fun p => usToDeg c (ticksToUs 8 p)) = some (readBackDegrees deg) := by
  obtain ⟨hlow, hhigh⟩ := ticks_of_degToUs_default hc hdeg
  obtain ⟨p, hp⟩ := exists_usToTicks hlow hhigh
  obtain ⟨-, -, hq⟩ := usToTicks_eq_some.mp hp
  rw [hp, Option.map_some, usToDeg_ticksToUs_default hc hq.symm]

/-- In a sound state of an instance with the default range every channel has it. -/
theorem State.Inv.hasDefaultRange (hi : s.Inv) (hk : k < s.cfg.n) (hmin : s.cfg.rangeMinUs = 544#16)
    (hmax : s.cfg.rangeMaxUs = 2400#16) : (s.chan k).hasDefaultRange := by
  obtain ⟨hkmin, hkmax⟩ := hi.channel_range hk
  exact ⟨hkmin.trans hmin, hkmax.trans hmax⟩

/-- `GET_POS` after `SET_POS` answers the angle its pulse reads back as. -/
theorem exec_getPos_after_setPos {x : Byte} {d : Half} (a : Half) (hi : s.Inv) (hr : s.rstp = false)
    (hx : x.toNat < s.cfg.n) (htick : s.cfg.tickUs = 8) (hmin : s.cfg.rangeMinUs = 544#16)
    (hmax : s.cfg.rangeMaxUs = 2400#16) (hd : d.toNat ≤ 180) :
    ∃ t u v, exec (.setPos x d) s = .next t ∧ exec (.getPos x a) t = .next u ∧
      u.answer = some (answerValue v) ∧ v.toNat = readBackDegrees d.toNat := by
  have hc := hi.hasDefaultRange hx hmin hmax
  obtain ⟨hlow, hhigh⟩ := ticks_of_degToUs_default hc hd
  obtain ⟨-, -, hset⟩ := setsAngle_storeAngle hi hx d.toNat
  rw [← exec_setPos_of_lt d hi hr hx, htick] at hset
  obtain ⟨t, ht, hpulse, -⟩ := hset hd hlow hhigh
  obtain ⟨hcfg, hrstp⟩ := wrotePulse_keeps hpulse
  obtain ⟨-, -, hpt, -⟩ := hpulse
  have hit := exec_keeps_inv hi ht
  have hct : (t.chan x.toNat).hasDefaultRange := hit.hasDefaultRange (hcfg ▸ hx) (hcfg ▸ hmin) (hcfg ▸ hmax)
  have hq : (t.chan x.toNat).pt.toNat + 64 = degToUs (t.chan x.toNat) d.toNat / 8 := by
    rw [hpt, Nat.sub_add_cancel hlow, degToUs_default hc, degToUs_default hct]
  have hdegrees : degreesOf t.cfg.tickUs (t.chan x.toNat) = readBackDegrees d.toNat := by
    rw [degreesOf, hcfg, htick, usToDeg_ticksToUs_default hct hq]
  have hle := readBackDegrees_eq_or d.toNat
  refine ⟨t, _, _, ht, exec_getPos_of_lt a hit (hrstp.trans hr) (hcfg ▸ hx), rfl, ?_⟩
  rw [positionHalf_toNat, hdegrees, min_eq_left (by omega)]

/-- Settles O55: an angle reads back as itself or as one degree less, and the 181 angles are counted. -/
theorem readBackOfAnAngle : Obligations.ReadBackOfAnAngle := by
  refine ⟨fun s x d a hi hr hx htick hmin hmax hd => ?_, fun c hmin hmax => ?_⟩
  · obtain ⟨t, u, v, ht, hu, hanswer, hv⟩ := exec_getPos_after_setPos a hi hr hx htick hmin hmax hd
    exact ⟨t, u, v, ht, hu, hanswer, hv ▸ readBackDegrees_eq_or d.toNat⟩
  · intro back
    have hback : ∀ deg ≤ 180, back deg = some (readBackDegrees deg) := fun deg => readBack_default ⟨hmin, hmax⟩
    have hsame : ((List.range 181).filter fun d => back d == some d) =
        (List.range 181).filter fun d => readBackDegrees d == d := by
      refine List.filter_congr fun d hd => ?_
      rw [hback d (Nat.le_of_lt_succ (List.mem_range.mp hd)), Option.some_beq_some]
    have hless : ((List.range 180).filter fun r => back (r + 1) == some r) =
        (List.range 180).filter fun r => readBackDegrees (r + 1) == r := by
      refine List.filter_congr fun r hr => ?_
      rw [hback (r + 1) (List.mem_range.mp hr), Option.some_beq_some]
    rw [hsame, hless]
    exact ⟨rfl, rfl, rfl⟩

end Sys2Proof.Machine
end

section
/-! SUPPORT. The statements of spec/41_timer.md: what a tick does, how many ticks a wait and a reset delay take, and
what two rows program. -/

namespace Sys2Proof.Machine

variable {s t u : State} {m r : Nat}

/-! ## One tick (R111, R112, R117, R120) -/

/-- Counting moves the counter and the flag and nothing else. -/
theorem onlyCounted_count (s : State) : onlyCounted s s.count := ⟨rfl, fun _ => rfl⟩

theorem count_cnt_toNat (s : State) : s.count.cnt.toNat = (s.cnt.toNat + 1) % 256 := by
  rw [count_cnt, BitVec.toNat_add]
  rfl

/-- The flag after a tick: a match sets it, and one that is set stays set. -/
theorem count_mf_eq_true : s.count.mf = true ↔ s.mf = true ∨ s.count.cnt = s.cmp := matchFlag_eq_true

/-- Settles O46: the three cases of a tick, the first two with the counting they share. -/
theorem tickCountsMatchesAndEndsTheDelay : Obligations.TickCountsMatchesAndEndsTheDelay := by
  intro s hi
  have hv := hi.instance_valid
  refine ⟨fun hr => ?free, fun hr hc => ?pending, fun hr hc => ?last⟩
  case free => exact ⟨_, exec_tick_count hv hr, onlyCounted_count s, count_cnt_toNat s, count_mf_eq_true⟩
  case pending =>
    exact ⟨_, exec_tick_pending hv hr hc.ne', onlyCounted_count _, count_cnt_toNat _, count_mf_eq_true⟩
  case last => exact exec_tick_reset hv hr hc

/-- A tick that does not reset counts, whatever it does to the reset delay: one off where a reset is pending. -/
theorem exec_tick_of_no_reset (hv : s.cfg.valid = true) (hno : s.rstp = true → s.rstc ≠ 1) :
    ∃ r, exec .tick s = .next { s with rstc := r }.count ∧ (s.rstp = true → r = s.rstc - 1) := by
  by_cases hr : s.rstp = true
  · exact ⟨s.rstc - 1, exec_tick_pending hv hr (hno hr), fun _ => rfl⟩
  · exact ⟨s.rstc, exec_tick_count hv (Bool.eq_false_of_not_eq_true hr), fun hp => absurd hp hr⟩

/-! ## The wait for the next match (R113) -/

/-- Counting goes from one tick of the wait to the next, and the reset delay has no part in it. -/
theorem waited_count (hm : m < waitTicks s.cnt.toNat s.cmp.toNat) :
    { s.waited m with rstc := r }.count = { s.waited (m + 1) with rstc := r } := by
  have hcnt : s.cnt + BitVec.ofNat 8 m + 1#8 = s.cnt + BitVec.ofNat 8 (m + 1) := by
    rw [BitVec.add_assoc, BitVec.ofNat_add]
  have hflag : matchFlag (decide (m = waitTicks s.cnt.toNat s.cmp.toNat)) (s.cnt + BitVec.ofNat 8 (m + 1)) s.cmp =
      decide (m + 1 = waitTicks s.cnt.toNat s.cmp.toNat) := by
    rw [decide_eq_false hm.ne, Bool.eq_iff_iff, matchFlag_eq_true, match_iff_waitTicks hm]
    simp
  simp only [State.count, State.waited, hcnt, hflag]

/-- The ticks of the wait on a legal instance, sound or not: without a pending reset the delay may hold anything. -/
theorem ticks_eq_waited_of_valid (hv : s.cfg.valid = true) (hclear : s.mf = false)
    (hm : m ≤ waitTicks s.cnt.toNat s.cmp.toNat) (hpend : s.rstp = true → m < s.rstc) :
    ∃ r, ticks m s = .next { s.waited m with rstc := r } ∧ (s.rstp = true → r = s.rstc - m) := by
  induction m with
  | zero => exact ⟨s.rstc, by rw [ticks_zero, waited_zero hclear], fun _ => rfl⟩
  | succ m ih =>
    obtain ⟨r, ht, hr⟩ := ih (Nat.le_of_succ_le hm) fun hp => Nat.lt_of_succ_lt (hpend hp)
    have hno : s.rstp = true → r ≠ 1 := fun hp => by
      have hlt := hpend hp
      rw [hr hp]
      omega
    obtain ⟨r', htick, hr'⟩ := exec_tick_of_no_reset (s := { s.waited m with rstc := r }) hv hno
    refine ⟨r', ?_, fun hp => by rw [hr' hp, hr hp, Nat.sub_sub]⟩
    rw [ticks_succ, ht, andThen_next, htick]
    exact congrArg Host.Outcome.next (waited_count (s := s) hm)

/-- The wait ends where the counter meets the compare value. -/
theorem waited_waitTicks_cnt (s : State) : (s.waited (waitTicks s.cnt.toNat s.cmp.toNat)).cnt = s.cmp :=
  (match_iff_waitTicks (Nat.lt_succ_self _)).mpr rfl

/-- The wait in the spec's form, over the integers. -/
theorem waitTicks_eq_emod (c v : Byte) :
    (waitTicks c.toNat v.toNat : Int) = ((v.toNat : Int) - c.toNat - 1) % 256 + 1 := by
  have hc := c.isLt
  have hv := v.isLt
  unfold waitTicks
  omega

/-- From a counter at zero the wait is the compare value itself, unless that is zero. -/
theorem waitTicks_zero_left {v : Nat} (hpos : 1 ≤ v) (hle : v ≤ 255) : waitTicks 0 v = v := by
  unfold waitTicks
  omega

/-- Settles O47: the ticks of the wait, with the flag set by the last of them only. -/
theorem matchComesAfterTheWait : Obligations.MatchComesAfterTheWait := by
  refine ⟨fun s hv hclear => ?_, fun v => waitTicks_zero_left, rfl, rfl⟩
  intro w hfree
  have hpend : s.rstp = true → w < s.rstc := fun hp => hfree.resolve_left (by simp [hp])
  refine ⟨waitTicks_eq_emod _ _, waitTicks_pos _ _, waitTicks_le _ _, fun m hm => ?before, ?atMatch⟩
  case before =>
    obtain ⟨r, ht, -⟩ := ticks_eq_waited_of_valid hv hclear hm.le fun hp => hm.trans (hpend hp)
    exact ⟨_, ht, decide_eq_false hm.ne⟩
  case atMatch =>
    obtain ⟨r, ht, -⟩ := ticks_eq_waited_of_valid hv hclear le_rfl hpend
    exact ⟨_, ht, decide_eq_true rfl, waited_waitTicks_cnt s⟩

/-! ## The delay of the commanded reset (R120, R203) -/

theorem handlerFrame_count (s : State) : HandlerFrame s s.count := ⟨rfl, rfl⟩

/-- What the frame keeps, field by field. -/
theorem HandlerFrame.fields (h : HandlerFrame s t) :
    t.cfg = s.cfg ∧ t.table = s.table ∧ t.rstp = s.rstp ∧ t.rstc = s.rstc ∧ t.env = s.env :=
  ⟨(congrArg State.cfg h.rest :), (congrArg State.table h.rest :), (congrArg State.rstp h.rest :),
    (congrArg State.rstc h.rest :), (congrArg State.env h.rest :)⟩

/-- The frame does not see the reset delay. -/
theorem HandlerFrame.withRstc (h : HandlerFrame s t) (r : Nat) :
    HandlerFrame { s with rstc := r } { t with rstc := r } :=
  ⟨congrArg (fun v : State => { v with rstc := r }) h.rest, h.pins_length⟩

/-- A round of `run` that does not end the delay takes one from it; the handler, if it runs, leaves it alone. -/
theorem tickRound_pending (hv : s.cfg.valid = true) (hr : s.rstp = true) (hc : s.rstc ≠ 1) :
    ∃ t, tickRound s = .next t ∧ HandlerFrame { s with rstc := s.rstc - 1 } t := by
  obtain ⟨c, htick, hcount⟩ : ∃ c, exec .tick s = .next c ∧ HandlerFrame { s with rstc := s.rstc - 1 } c :=
    ⟨_, exec_tick_pending hv hr hc, handlerFrame_count _⟩
  cases hm : c.mf with
  | false => exact ⟨c, tickRound_of_clear htick hm, hcount⟩
  | true =>
    obtain ⟨hcfg, -⟩ := hcount.fields
    obtain ⟨t, hisr, -, hframe⟩ := isr_of_flag (hcfg ▸ hv) hm
    exact ⟨t, (tickRound_of_flag htick hm).trans hisr, hcount.trans hframe⟩

/-- The round that ends the delay is the reset, which leaves the handler nothing to do. -/
theorem tickRound_reset (hv : s.cfg.valid = true) (hr : s.rstp = true) (hc : s.rstc = 1) :
    tickRound s = .next s.resetNow :=
  tickRound_of_clear (exec_tick_reset hv hr hc) rfl

/-- During the delay `run` moves what is the timer's and the handler's, and takes one a tick from the delay. -/
theorem run_pending (hv : s.cfg.valid = true) (hr : s.rstp = true) (hm : m < s.rstc) :
    ∃ u, run m s = .next u ∧ HandlerFrame { s with rstc := s.rstc - m } u := by
  induction m with
  | zero => exact ⟨s, rfl, HandlerFrame.refl s⟩
  | succ m ih =>
    obtain ⟨u, hu, hframe⟩ := ih (Nat.lt_of_succ_lt hm)
    obtain ⟨hcfg, -, hrstp, hrstc, -⟩ := hframe.fields
    have hleft : u.rstc = s.rstc - m := hrstc
    obtain ⟨t, ht, hround⟩ := tickRound_pending (hcfg ▸ hv) (hrstp.trans hr) (by omega)
    refine ⟨t, by rw [run_succ, hu, andThen_next, ht], ?_⟩
    rw [hleft, Nat.sub_sub] at hround
    exact (hframe.withRstc _).trans hround

/-- The tick number RSTC of a pending reset performs it. -/
theorem run_rstc_eq_resetNow (hi : s.Inv) (hr : s.rstp = true) : run s.rstc s = .next s.resetNow := by
  obtain ⟨hpos, -⟩ := hi.pending_count hr
  obtain ⟨m, hm⟩ := Nat.exists_eq_add_of_le' hpos
  obtain ⟨u, hu, hframe⟩ := run_pending hi.instance_valid hr (show m < s.rstc by omega)
  obtain ⟨hcfg, -, hrstp, hrstc, henv⟩ := hframe.fields
  have hlast : u.rstc = 1 := hrstc.trans (by simp only; omega)
  rw [hm, run_succ, hu, andThen_next, tickRound_reset (hcfg ▸ hi.instance_valid) (hrstp.trans hr) hlast,
    resetNow_eq, resetNow_eq, hcfg, henv]

/-- Settles O49: the delay of any pending reset, and then that of the one the write has just started. -/
theorem theCommandedResetComesAfterItsDelay : Obligations.TheCommandedResetComesAfterItsDelay := by
  refine ⟨fun s hi hr => ⟨fun m hm => ?during, run_rstc_eq_resetNow hi hr⟩, fun s data hi hr _ => ?fromWrite⟩
  case during =>
    obtain ⟨u, hu, hframe⟩ := run_pending hi.instance_valid hr hm
    obtain ⟨-, htable, hrstp, hrstc, -⟩ := hframe.fields
    exact ⟨u, hu, hrstp.trans hr, hrstc, htable⟩
  case fromWrite =>
    have hwrite := exec_wrResetNz data hi.instance_valid hr
    exact ⟨_, hwrite, rfl, rfl, run_rstc_eq_resetNow (exec_keeps_inv hi hwrite) rfl⟩

/-! ## What two rows program (R114, R115, R127, R129) -/

/-- Settles O35: the equation of the row, whose counter value has the zero-pulse case. -/
theorem waitPreRollRowProgramsThePulse : Obligations.WaitPreRollRowProgramsThePulse := by
  intro s hi hm hp
  have hrow : s.row = .waitPreRoll := by rw [State.row, hp, rowOf]
  have hframe := (handlerFrame_enter s).trans
    (handlerFrame_program _ s.curChan.pt (preRollCount s.curChan.pt) .setPinLow)
  exact ⟨_, exec_isrWaitPreRoll hi.instance_valid (rowEnabled_of_flag hm hrow), onlyHandled_of_frame hframe,
    rfl, rfl, rfl, rfl, rfl, rfl⟩

/-- Settles O37: the long pulse selects the row, which drives the current pin and programs 8 bits of the rest of the
frame. -/
theorem setPinLowLongRowEndsThePulse : Obligations.SetPinLowLongRowEndsThePulse := by
  intro s hi hm hp hlong
  have hpt : 192 ≤ s.curChan.pt.toNat := by
    simp only [State.curChan]
    omega
  have hrow : s.row = .setPinLowLong := by rw [State.row, hp, rowOf_setPinLow, if_pos hpt]
  have hcur : s.cur < s.pins.length := hi.cur_lt.trans_eq hi.pins_length.symm
  have hframe := ((handlerFrame_enter s).trans (handlerFrame_drivePin _ false)).trans
    (handlerFrame_program _ (longCompare s.curChan.pt) 0#8 .setPinHigh)
  refine ⟨_, exec_isrSetPinLowLong hi.instance_valid (rowEnabled_of_flag hm hrow), onlyHandled_of_frame hframe,
    by simp, drivePin_pin s.enterHandler false hcur, ?_, rfl, by simp, rfl⟩
  exact BitVec.toNat_ofNat _ _

end Sys2Proof.Machine
end

section
/-! SUPPORT. The statements of spec/42_pulse_scheduler.md, with the turns and steps that come to nothing: what
three of the rows program, and what a row reads of the Channel Table. -/

namespace Sys2Proof.Machine

variable {s t : State} {rest : List Turn}

/-! ## Turns and steps that come to nothing (R125, R150, R153) -/

theorem step_of_pick_idle (hv : s.cfg.valid = true) (hp : pick s = .idle t) : step s = .next t := by
  rw [step_of_valid hv, hp]

theorem hostTurn_passes (h : s.rstp = true ∨ s.env.hostPort = []) : hostTurn rest s = .idle (s.withSched rest) := by
  rcases hostTurn_cases rest s with ⟨hidle, -⟩ | ⟨w, ws, hr, hport, -⟩
  · exact hidle
  · simp [hr, hport] at h

theorem pick_scheduler_clear (hs : s.env.sched = .scheduler :: rest) (hm : s.mf = false) :
    pick s = .idle (s.withSched rest) := by
  simp [pick, hs, hm]

/-- Settles O10: in each case the turn comes to `idle`, with the rest of the list still to come. -/
theorem turnsWithoutAStepPass : Obligations.TurnsWithoutAStepPass :=
  fun _ _ hv =>
    ⟨fun hs hwait => step_of_pick_idle hv ((pick_host hs).trans (hostTurn_passes hwait)),
      fun hs hm => step_of_pick_idle hv (pick_scheduler_clear hs hm)⟩

/-- On a legal instance every instruction answers. -/
theorem exists_exec_next (hv : s.cfg.valid = true) (i : Instr) : ∃ t, exec i s = .next t := by
  obtain ⟨t, ht⟩ := exec_eq_onInstance i s
  exact ⟨t, ht.trans (onInstance_of_valid hv)⟩

/-- Settles O40: of all that a Host instruction or a row can do, only to leave the state as it is remains. -/
theorem stepsThatAreNotEnabledChangeNothing : Obligations.StepsThatAreNotEnabledChangeNothing := by
  intro s i hv
  obtain ⟨t, ht⟩ := exists_exec_next hv i
  refine ⟨fun hh hr => ?host, fun r hrow hoff => ?row⟩
  case host =>
    obtain ⟨-, ⟨-, rfl⟩ | ⟨hfree, -⟩⟩ := exec_host_cases hh ht
    · exact ht
    · exact absurd (hr.symm.trans hfree) Bool.noConfusion
  case row =>
    obtain ⟨-, -, ⟨-, rfl⟩ | ⟨he, hsel, -⟩⟩ := exec_row_cases hrow ht
    · exact ht
    · rcases hoff with hclear | hother
      · exact absurd ((rowEnabled_eq_true.mp he).1.symm.trans hclear) Bool.noConfusion
      · exact absurd hsel hother

/-! ## What three of the rows program (R126, R128, R130) -/

theorem row_of_setPinHigh (hp : s.ph = .setPinHigh) : s.row = .setPinHigh := by rw [State.row, hp, rowOf]

theorem row_of_waitPreRoll (hp : s.ph = .waitPreRoll) : s.row = .waitPreRoll := by rw [State.row, hp, rowOf]

theorem row_of_setPinLow_short (hp : s.ph = .setPinLow) (hpt : s.curChan.pt.toNat ≤ 191) :
    s.row = .setPinLowShort := by
  rw [State.row, hp, rowOf_setPinLow, if_neg (by omega)]

theorem row_of_setPinLow_long (hp : s.ph = .setPinLow) (hpt : 192 ≤ s.curChan.pt.toNat) :
    s.row = .setPinLowLong := by
  rw [State.row, hp, rowOf_setPinLow, if_pos hpt]

theorem row_of_waitFrameEnd (hp : s.ph = .waitFrameEnd) : s.row = .waitFrameEnd := by rw [State.row, hp, rowOf]

/-- In a sound state the next channel is one of the instance. -/
theorem State.Inv.next_cur_lt (hi : s.Inv) : (s.cur + 1) % s.cfg.n < s.cfg.n :=
  Nat.mod_lt _ (Nat.zero_lt_of_lt hi.cur_lt)

/-- Settles O34: the pin driven is that of the channel the row has just advanced to. -/
theorem setPinHighRowStartsTheSlot : Obligations.SetPinHighRowStartsTheSlot := by
  intro s hi hm hp
  have hnext : (s.cur + 1) % s.cfg.n < s.pins.length := hi.next_cur_lt.trans_eq hi.pins_length.symm
  have hframe := (((handlerFrame_enter s).trans (handlerFrame_advance _)).trans (handlerFrame_drivePin _ true)).trans
    (handlerFrame_program _ (preRollCompare s.cfg) 0#8 .waitPreRoll)
  exact ⟨_, exec_isrSetPinHigh hi.instance_valid (rowEnabled_of_flag hm (row_of_setPinHigh hp)),
    onlyHandled_of_frame hframe, by simp, drivePin_pin s.enterHandler.advanceChannel true hnext,
    preRollCompare_toNat s.cfg, rfl, by simp, rfl⟩

/-- Settles O36: the short pulse selects the row, which drives the current pin and programs the rest of the half
frame. -/
theorem setPinLowShortRowEndsThePulse : Obligations.SetPinLowShortRowEndsThePulse := by
  intro s hi hm hp hshort
  have hpt : s.curChan.pt.toNat ≤ 191 := by
    simp only [State.curChan]
    omega
  have hcur : s.cur < s.pins.length := hi.cur_lt.trans_eq hi.pins_length.symm
  have hcmp : (shortCompare s.curChan.pt).toNat = 255 - (64 + s.curChan.pt.toNat) := by
    rw [shortCompare_toNat hpt]
    omega
  have hframe := ((handlerFrame_enter s).trans (handlerFrame_drivePin _ false)).trans
    (handlerFrame_program _ (shortCompare s.curChan.pt) 0#8 .waitFrameEnd)
  exact ⟨_, exec_isrSetPinLowShort hi.instance_valid (rowEnabled_of_flag hm (row_of_setPinLow_short hp hpt)),
    onlyHandled_of_frame hframe, by simp, drivePin_pin s.enterHandler false hcur, hcmp, rfl, by simp, rfl⟩

/-- Settles O38: the equation of the row, which drives no pin. -/
theorem waitFrameEndRowWaitsTheSecondHalf : Obligations.WaitFrameEndRowWaitsTheSecondHalf := by
  intro s hi hm hp
  have hframe := (handlerFrame_enter s).trans (handlerFrame_program _ frameEndCompare 0#8 .setPinHigh)
  exact ⟨_, exec_isrWaitFrameEnd hi.instance_valid (rowEnabled_of_flag hm (row_of_waitFrameEnd hp)),
    onlyHandled_of_frame hframe, rfl, rfl, rfl, rfl, rfl, rfl⟩

/-! ## What a row reads of the Channel Table (R133) -/

/-- Driving the current pin reads nothing of the table but the enable bit of its channel. -/
theorem drivePin_withTable {table : List Channel} (v : Bool)
    (hen : ({ s with table := table }.chan s.cur).en = (s.chan s.cur).en) :
    { s with table := table }.drivePin v = { s.drivePin v with table := table } := by
  have hen' : { s with table := table }.curChan.en = s.curChan.en := hen
  unfold State.drivePin
  rw [hen']
  split <;> rfl

/-- Settles O45: in each phase the two rows are the same but for the fields they read, which agree. -/
theorem rowsReadOnlyWhatR133Names : Obligations.RowsReadOnlyWhatR133Names := by
  intro s table hi hm _ s' hagree
  have hv := hi.instance_valid
  cases hph : s.ph with
  | setPinHigh =>
    rw [hph] at hagree
    refine ⟨_, _, isr_of_setPinHigh hv hm hph, isr_of_setPinHigh (s := s') hv hm hph, ?_⟩
    have hdrive := drivePin_withTable (s := s.enterHandler.advanceChannel) true hagree
    exact congrArg (State.program · (preRollCompare s.cfg) 0#8 .waitPreRoll) hdrive
  | waitPreRoll =>
    rw [hph] at hagree
    have hpt : s'.curChan.pt = s.curChan.pt := hagree
    refine ⟨_, _, isr_of_waitPreRoll hv hm hph, isr_of_waitPreRoll (s := s') hv hm hph, ?_⟩
    rw [hpt]
    rfl
  | setPinLow =>
    rw [hph] at hagree
    obtain ⟨hen, hpt⟩ := hagree
    have hpt' : s'.curChan.pt = s.curChan.pt := hpt
    have hdrive := drivePin_withTable (s := s.enterHandler) false hen
    rcases Nat.lt_or_ge 191 s.curChan.pt.toNat with hlong | hshort
    · refine ⟨_, _, isr_of_setPinLow_long hv hm hph hlong,
        isr_of_setPinLow_long (s := s') hv hm hph (hpt' ▸ hlong), ?_⟩
      rw [hpt']
      exact congrArg (State.program · (longCompare s.curChan.pt) 0#8 .setPinHigh) hdrive
    · refine ⟨_, _, isr_of_setPinLow_short hv hm hph hshort,
        isr_of_setPinLow_short (s := s') hv hm hph (hpt' ▸ hshort), ?_⟩
      rw [hpt']
      exact congrArg (State.program · (shortCompare s.curChan.pt) 0#8 .waitFrameEnd) hdrive
  | waitFrameEnd =>
    exact ⟨_, _, isr_of_waitFrameEnd hv hm hph, isr_of_waitFrameEnd (s := s') hv hm hph, rfl⟩

end Sys2Proof.Machine
end

section
/-! SUPPORT. The course of a slot under the schedule of `run` (spec/42_pulse_scheduler.md R135 to R138): legs of a wait
and the row that ends it, one after the other from one `SetPinHigh` row to the next. -/

namespace Sys2Proof.Machine

variable {s t a b : State} {r : Row} {m n k : Nat} {P Q : State → Prop}

/-! ## Runs through states with a property -/

/-- `n` ticks of `run` lead from `s` to `t`, and before the last of them every state on the way has `P`. -/
structure RunsThrough (P : State → Prop) (n : Nat) (s t : State) : Prop where
  before : ∀ m < n, ∃ u, run m s = .next u ∧ P u
  reached : run n s = .next t

theorem RunsThrough.mono (h : RunsThrough P n s t) (hPQ : ∀ u, P u → Q u) : RunsThrough Q n s t where
  before m hm := (h.before m hm).imp fun u hu => ⟨hu.1, hPQ u hu.2⟩
  reached := h.reached

/-- What is known of the states on the way, for ticks counted from an earlier start. -/
theorem RunsThrough.since (h : RunsThrough P n a t) (ha : run k s = .next a) (hkm : k ≤ m) (hm : m < k + n) :
    ∃ u, run m s = .next u ∧ P u := by
  obtain ⟨j, rfl⟩ := Nat.exists_eq_add_of_le hkm
  rw [run_add, ha, andThen_next]
  exact h.before j (by omega)

theorem RunsThrough.append (h : RunsThrough P k s a) (h' : RunsThrough P n a t) : RunsThrough P (k + n) s t where
  before m hm := by
    rcases Nat.lt_or_ge m k with hlt | hge
    · exact h.before m hlt
    · exact h'.since h.reached hge hm
  reached := by rw [run_add, h.reached, andThen_next, h'.reached]

/-! ## One leg: a wait and the row that ends it -/

/-- A sound state that counts towards a match, with no reset pending: what a row leaves, where none is pending. -/
structure State.Waiting (s : State) : Prop where
  sound : s.Inv
  free : s.rstp = false
  clear : s.mf = false

/-- The ticks to the next match (R113). -/
abbrev State.wait (s : State) : Nat := waitTicks s.cnt.toNat s.cmp.toNat

/-- `run` is the ticks alone as long as no match calls the handler. -/
theorem State.Waiting.run_eq_waited (h : s.Waiting) (hm : m < s.wait) : run m s = .next (s.waited m) := by
  induction m with
  | zero => rw [run_zero, waited_zero h.clear]
  | succ m ih =>
    have htick := exec_tick_waited h.sound (Nat.lt_of_succ_lt hm) fun hr => absurd hr (by simp [h.free])
    rw [run_succ, ih (Nat.lt_of_succ_lt hm), andThen_next]
    exact tickRound_of_clear htick (decide_eq_false hm.ne)

/-- The tick of the match is the round in which the handler runs. -/
theorem State.Waiting.run_wait (h : s.Waiting) : run s.wait s = isr (s.waited s.wait) := by
  obtain ⟨m, hm⟩ := Nat.exists_eq_add_of_le' (waitTicks_pos s.cnt.toNat s.cmp.toNat)
  have hlt : m < s.wait := hm.ge
  have htick := exec_tick_waited h.sound hlt fun hr => absurd hr (by simp [h.free])
  rw [State.wait, hm, run_succ, h.run_eq_waited hlt, andThen_next]
  exact tickRound_of_flag htick (decide_eq_true hm.symm)

theorem State.Waiting.waited_inv (h : s.Waiting) (m : Nat) : (s.waited m).Inv :=
  { h.sound with
    idle_count := fun _ => by simp [State.waited, h.sound.idle_count h.free]
    pending_count := fun hr => absurd (hr.symm.trans h.free) Bool.noConfusion }

theorem waited_wait_mf (s : State) : (s.waited s.wait).mf = true := decide_eq_true rfl

/-- The scheduler's state and the pins are in `u` what they are in `s`. -/
def State.sameRow (s u : State) : Prop := u.ph = s.ph ∧ u.cur = s.cur ∧ u.pins = s.pins

/-- The wait that `s` begins and the row that ends it lead to `t`. -/
structure Leg (s t : State) : Prop where
  during : RunsThrough s.sameRow s.wait s t
  waiting : t.Waiting
  cfg : t.cfg = s.cfg
  table : t.table = s.table

theorem Leg.chan (h : Leg s t) (k : Nat) : t.chan k = s.chan k := by
  rw [State.chan, State.chan, h.cfg, h.table]

/-- A row that runs at the match makes a leg. -/
theorem State.Waiting.leg (h : s.Waiting) (hrow : s.row = r) (hexec : exec r.instr (s.waited s.wait) = .next t) :
    Leg s t := by
  have hisr : isr (s.waited s.wait) = .next t := (isr_eq_exec (s := s.waited s.wait) hrow).trans hexec
  have hi := h.waited_inv s.wait
  obtain ⟨u, hu, hclear, hframe⟩ := isr_of_flag hi.instance_valid (waited_wait_mf s)
  cases hisr.symm.trans hu
  obtain ⟨hcfg, htable, hrstp, -⟩ := hframe.fields
  exact {
    during := ⟨fun m hm => ⟨_, h.run_eq_waited hm, rfl, rfl, rfl⟩, h.run_wait.trans hisr⟩
    waiting := ⟨exec_keeps_inv hi hexec, hrstp.trans h.free, hclear⟩
    cfg := hcfg
    table := htable }

/-! ## The leg of each phase, and the wait its row begins -/

/-- The ticks of the pre-roll (R126). -/
abbrev State.preRollLen (s : State) : Nat := 64 - s.cfg.isrTrimTicks.val

theorem slotStart_wait (hs : s.slotStart) : s.wait = s.preRollLen := by
  obtain ⟨-, hcnt, hcmp, -⟩ := hs
  have htrim := s.cfg.isrTrimTicks.isLt
  rw [State.wait, hcnt, hcmp]
  exact waitTicks_zero_left (by omega) (by omega)

/-- The pre-roll ends in the wait of the pulse: one tick where the pulse is zero (R127). -/
theorem State.Waiting.preRoll_leg (h : s.Waiting) (hp : s.ph = .waitPreRoll) :
    ∃ t, Leg s t ∧ t.ph = .setPinLow ∧ t.cur = s.cur ∧ t.pins = s.pins ∧
      t.wait = if s.curChan.pt.toNat = 0 then 1 else s.curChan.pt.toNat := by
  obtain ⟨t, hexec, -, hcur, hpins, hcmp, hcnt, -, hph⟩ :=
    waitPreRollRowProgramsThePulse (s.waited s.wait) (h.waited_inv _) (waited_wait_mf s) hp
  refine ⟨t, h.leg (row_of_waitPreRoll hp) hexec, hph, hcur, hpins, ?_⟩
  change t.cmp = s.curChan.pt at hcmp
  change t.cnt = (if s.curChan.pt = 0#8 then 255#8 else 0#8) at hcnt
  rw [State.wait, hcmp, hcnt]
  by_cases hzero : s.curChan.pt = 0#8
  · rw [if_pos hzero, hzero]
    rfl
  · have hpos : s.curChan.pt.toNat ≠ 0 := fun e => hzero (BitVec.eq_of_toNat_eq e)
    rw [if_neg hzero, if_neg hpos]
    exact waitTicks_zero_left (by omega) (by omega)

/-- A short pulse ends with the pin low and the rest of the half frame to wait: a full turn of the counter where that
rest is zero (R128). -/
theorem State.Waiting.pulse_leg_short (h : s.Waiting) (hp : s.ph = .setPinLow) (hpt : s.curChan.pt.toNat ≤ 191) :
    ∃ t, Leg s t ∧ t.ph = .waitFrameEnd ∧ t.cur = s.cur ∧
      (∀ k, t.pin k = if k = s.cur ∧ s.curChan.en = true then false else s.pin k) ∧
      t.wait = if s.curChan.pt.toNat = 191 then 256 else 191 - s.curChan.pt.toNat := by
  obtain ⟨t, hexec, -, hcur, hpin, hcmp, hcnt, -, hph⟩ :=
    setPinLowShortRowEndsThePulse (s.waited s.wait) (h.waited_inv _) (waited_wait_mf s) hp
      (show 64 + s.curChan.pt.toNat ≤ 255 by omega)
  refine ⟨t, h.leg (row_of_setPinLow_short hp hpt) hexec, hph, hcur, hpin, ?_⟩
  change t.cmp.toNat = 255 - (64 + s.curChan.pt.toNat) at hcmp
  rw [State.wait, hcmp, hcnt, BitVec.toNat_ofNat, waitTicks]
  split <;> omega

/-- A long pulse ends with the pin low and the rest of the frame to wait, with no `WaitFrameEnd` row (R129). -/
theorem State.Waiting.pulse_leg_long (h : s.Waiting) (hp : s.ph = .setPinLow) (hpt : 192 ≤ s.curChan.pt.toNat) :
    ∃ t, Leg s t ∧ t.ph = .setPinHigh ∧ t.cur = s.cur ∧
      (∀ k, t.pin k = if k = s.cur ∧ s.curChan.en = true then false else s.pin k) ∧
      t.wait = 448 - s.curChan.pt.toNat := by
  obtain ⟨t, hexec, -, hcur, hpin, hcmp, hcnt, -, hph⟩ :=
    setPinLowLongRowEndsThePulse (s.waited s.wait) (h.waited_inv _) (waited_wait_mf s) hp
      (show 255 < 64 + s.curChan.pt.toNat by omega)
  refine ⟨t, h.leg (row_of_setPinLow_long hp hpt) hexec, hph, hcur, hpin, ?_⟩
  change t.cmp.toNat = (512 - (64 + s.curChan.pt.toNat)) % 256 at hcmp
  rw [State.wait, hcmp, hcnt, BitVec.toNat_ofNat, waitTicks]
  omega

/-- The first half frame ends in the wait of the second (R130). -/
theorem State.Waiting.halfFrame_leg (h : s.Waiting) (hp : s.ph = .waitFrameEnd) :
    ∃ t, Leg s t ∧ t.ph = .setPinHigh ∧ t.cur = s.cur ∧ t.pins = s.pins ∧ t.wait = 255 := by
  obtain ⟨t, hexec, -, hcur, hpins, hcmp, hcnt, -, hph⟩ :=
    waitFrameEndRowWaitsTheSecondHalf (s.waited s.wait) (h.waited_inv _) (waited_wait_mf s) hp
  refine ⟨t, h.leg (row_of_waitFrameEnd hp) hexec, hph, hcur, hpins, ?_⟩
  rw [State.wait, hcmp, hcnt]
  rfl

/-- The frame ends in the next channel's slot (R126, R132). -/
theorem State.Waiting.frameEnd_leg (h : s.Waiting) (hp : s.ph = .setPinHigh) :
    ∃ t, Leg s t ∧ t.slotStart ∧ t.cur = (s.cur + 1) % s.cfg.n := by
  obtain ⟨t, hexec, -, hcur, -, hcmp, hcnt, hclear, hph⟩ :=
    setPinHighRowStartsTheSlot (s.waited s.wait) (h.waited_inv _) (waited_wait_mf s) hp
  have hleg := h.leg (row_of_setPinHigh hp) hexec
  exact ⟨t, hleg, ⟨hph, hcnt, hleg.cfg ▸ hcmp, hclear⟩, hcur⟩

/-! ## The slot (R136, R137) -/

/-- The slot of channel `cur` is past its pre-roll, with the pins at `pins`. -/
def State.pastPreRoll (cur : Nat) (pins : List Bool) (u : State) : Prop :=
  u.ph ≠ .waitPreRoll ∧ u.cur = cur ∧ u.pins = pins

/-- A leg past the pre-roll. -/
theorem Leg.pastPreRoll (h : Leg s t) (hp : s.ph ≠ .waitPreRoll) :
    RunsThrough (State.pastPreRoll s.cur s.pins) s.wait s t :=
  h.during.mono fun _ hu => ⟨hu.1 ▸ hp, hu.2⟩

/-- What is left of a slot after its pulse: `n` ticks with the pins as they are, up to the next slot's beginning. -/
structure RestOfSlot (n : Nat) (s t : State) : Prop where
  through : RunsThrough (State.pastPreRoll s.cur s.pins) n s t
  waiting : t.Waiting
  start : t.slotStart
  cur : t.cur = (s.cur + 1) % s.cfg.n
  cfg : t.cfg = s.cfg
  table : t.table = s.table

theorem State.Waiting.restOfSlot_of_setPinHigh (h : s.Waiting) (hp : s.ph = .setPinHigh) :
    ∃ t, RestOfSlot s.wait s t := by
  obtain ⟨t, hleg, hstart, hcur⟩ := h.frameEnd_leg hp
  exact ⟨t, hleg.pastPreRoll (by simp [hp]), hleg.waiting, hstart, hcur, hleg.cfg, hleg.table⟩

theorem State.Waiting.restOfSlot_of_waitFrameEnd (h : s.Waiting) (hp : s.ph = .waitFrameEnd) :
    ∃ t, RestOfSlot (s.wait + 255) s t := by
  obtain ⟨c, hleg, hph, hcur, hpins, hwait⟩ := h.halfFrame_leg hp
  obtain ⟨t, hrest⟩ := hleg.waiting.restOfSlot_of_setPinHigh hph
  have hthrough := hrest.through
  rw [hcur, hpins, hwait] at hthrough
  exact ⟨t, (hleg.pastPreRoll (by simp [hp])).append hthrough, hrest.waiting, hrest.start,
    by rw [hrest.cur, hcur, hleg.cfg], hrest.cfg.trans hleg.cfg, hrest.table.trans hleg.table⟩

/-- The row that ends the pulse, short or long, and the rest of the slot: together with the high time they make the
slot's length, whatever the trim. -/
theorem State.Waiting.pulse_and_rest (h : s.Waiting) (hp : s.ph = .setPinLow) :
    ∃ t u n, Leg s t ∧ t.cur = s.cur ∧
      (∀ k, t.pin k = if k = s.cur ∧ s.curChan.en = true then false else s.pin k) ∧ RestOfSlot n t u ∧
      ∀ trim ≤ 64, highTicks trim s.curChan.pt.toNat + n = slotTicks trim s.curChan.pt.toNat := by
  rcases Nat.lt_or_ge 191 s.curChan.pt.toNat with hlong | hshort
  · obtain ⟨t, hleg, hph, hcur, hpin, hwait⟩ := h.pulse_leg_long hp hlong
    obtain ⟨u, hrest⟩ := hleg.waiting.restOfSlot_of_setPinHigh hph
    refine ⟨t, u, _, hleg, hcur, hpin, hrest, fun trim htrim => ?_⟩
    have hpt := s.curChan.pt.isLt
    rw [hwait, highTicks, slotTicks, if_neg (by omega), if_neg (by omega), if_neg (by omega), if_neg (by omega)]
    omega
  · obtain ⟨t, hleg, hph, hcur, hpin, hwait⟩ := h.pulse_leg_short hp hshort
    obtain ⟨u, hrest⟩ := hleg.waiting.restOfSlot_of_waitFrameEnd hph
    refine ⟨t, u, _, hleg, hcur, hpin, hrest, fun trim htrim => ?_⟩
    rw [hwait, highTicks, slotTicks]
    split_ifs <;> omega

/-- The high time of the current channel's pin (R137). -/
abbrev State.highLen (s : State) : Nat := highTicks s.cfg.isrTrimTicks.val s.curChan.pt.toNat

/-- The length of the current channel's slot (R136). -/
abbrev State.slotLen (s : State) : Nat := slotTicks s.cfg.isrTrimTicks.val s.curChan.pt.toNat

/-- The slot that begins in `s` goes through `a`, where the pre-roll is over, and `b`, where the pulse is, to the next
slot's beginning `t`. -/
structure Slot (s a b t : State) : Prop where
  preRoll : run s.preRollLen s = .next a
  pulse : RunsThrough (State.pastPreRoll s.cur s.pins) (s.highLen - s.preRollLen) a b
  falls : ∀ k, b.pin k = if k = s.cur ∧ s.curChan.en = true then false else s.pin k
  low : RunsThrough (State.pastPreRoll s.cur b.pins) (s.slotLen - s.highLen) b t
  waiting : t.Waiting
  start : t.slotStart
  cur : t.cur = (s.cur + 1) % s.cfg.n
  cfg : t.cfg = s.cfg
  table : t.table = s.table

theorem slotStart.waiting (hi : s.Inv) (hr : s.rstp = false) (hs : s.slotStart) : s.Waiting :=
  have ⟨_, _, _, hclear⟩ := hs
  ⟨hi, hr, hclear⟩

theorem State.Waiting.exists_slot (h : s.Waiting) (hs : s.slotStart) : ∃ a b t, Slot s a b t := by
  obtain ⟨a, hpre, hph, hcur, hpins, hwait⟩ := h.preRoll_leg hs.1
  obtain ⟨b, t, n, hpulse, hcurB, hpin, hrest, hlen⟩ := hpre.waiting.pulse_and_rest hph
  have hchan : a.curChan = s.curChan := by rw [State.curChan, hcur, hpre.chan, State.curChan]
  have hpinA (k : Nat) : a.pin k = s.pin k := by rw [State.pin, hpins, State.pin]
  have htrim := s.cfg.isrTrimTicks.isLt
  have hhigh : s.highLen - s.preRollLen = a.wait := by
    rw [hwait, State.highLen, State.preRollLen, highTicks]
    split <;> omega
  have hlow : s.slotLen - s.highLen = n := by
    rw [State.slotLen, State.highLen, ← hchan, ← hlen _ (by omega), Nat.add_sub_cancel_left]
  refine ⟨a, b, t, ?preRoll, ?pulse, ?falls, ?low, hrest.waiting, hrest.start, ?cur, ?cfg, ?table⟩
  case preRoll => exact slotStart_wait hs ▸ hpre.during.reached
  case pulse =>
    rw [hhigh, ← hcur, ← hpins]
    exact hpulse.pastPreRoll (by simp [hph])
  case falls =>
    intro k
    rw [hpin, hcur, hchan, hpinA]
  case low =>
    rw [hlow, ← hcur, ← hcurB]
    exact hrest.through
  case cur => rw [hrest.cur, hcurB, hcur, hpulse.cfg, hpre.cfg]
  case cfg => rw [hrest.cfg, hpulse.cfg, hpre.cfg]
  case table => rw [hrest.table, hpulse.table, hpre.table]

/-- Before the pre-roll is over only the timer moves. -/
theorem run_of_lt_preRollLen (h : s.Waiting) (hs : s.slotStart) (hm : m < s.preRollLen) :
    run m s = .next (s.waited m) :=
  h.run_eq_waited (slotStart_wait hs ▸ hm)

/-- Within the pre-roll the counter has left its start, so no slot starts there. -/
theorem waited_not_slotStart (hs : s.slotStart) (hpos : 0 < m) (hm : m < s.preRollLen) :
    ¬ (s.waited m).slotStart := by
  obtain ⟨-, hcnt, -⟩ := hs
  rintro ⟨-, hzero, -⟩
  have hval : (s.cnt + BitVec.ofNat 8 m).toNat = 0 := congrArg BitVec.toNat hzero
  rw [hcnt, BitVec.zero_add, BitVec.toNat_ofNat] at hval
  rw [State.preRollLen] at hm
  omega

/-- The pre-roll is the beginning of the high time. -/
theorem preRollLen_le_highLen (s : State) : s.preRollLen ≤ s.highLen := by
  rw [State.preRollLen, State.highLen, highTicks]
  split <;> omega

/-- The high time is the beginning of the slot. -/
theorem highLen_le_slotLen (s : State) : s.highLen ≤ s.slotLen := by
  have hpt := s.curChan.pt.isLt
  have htrim := s.cfg.isrTrimTicks.isLt
  rw [State.highLen, State.slotLen, highTicks, slotTicks]
  split_ifs <;> omega

theorem Slot.run_highLen (hslot : Slot s a b t) : run s.highLen s = .next b := by
  rw [← Nat.add_sub_cancel' (preRollLen_le_highLen s), run_add, hslot.preRoll, andThen_next]
  exact hslot.pulse.reached

theorem Slot.run_slotLen (hslot : Slot s a b t) : run s.slotLen s = .next t := by
  rw [← Nat.add_sub_cancel' (highLen_le_slotLen s), run_add, hslot.run_highLen, andThen_next]
  exact hslot.low.reached

/-- From the pre-roll to the fall of the pin nothing but the timer and the phase moves. -/
theorem Slot.during_pulse (hslot : Slot s a b t) (hge : s.preRollLen ≤ m) (hlt : m < s.highLen) :
    ∃ u, run m s = .next u ∧ u.pastPreRoll s.cur s.pins :=
  hslot.pulse.since hslot.preRoll hge (by omega)

/-- From the fall of the pin to the end of the slot no pin moves. -/
theorem Slot.during_low (hslot : Slot s a b t) (hge : s.highLen ≤ m) (hlt : m < s.slotLen) :
    ∃ u, run m s = .next u ∧ u.pastPreRoll s.cur b.pins :=
  hslot.low.since hslot.run_highLen hge (by omega)

/-- Settles O51: a slot's three parts keep CUR and hold no second start, and it ends in the next channel's. -/
theorem slotLengthIsAsTheTableSays : Obligations.SlotLengthIsAsTheTableSays := by
  intro s hi hr hs len
  have h := slotStart.waiting hi hr hs
  obtain ⟨a, b, t, hslot⟩ := h.exists_slot hs
  refine ⟨fun m hpos hm => ?_, t, hslot.run_slotLen, hslot.start, hslot.cur, hslot.table⟩
  rcases Nat.lt_or_ge m s.preRollLen with hpre | hpast
  · exact ⟨_, run_of_lt_preRollLen h hs hpre, rfl, waited_not_slotStart hs hpos hpre⟩
  · obtain ⟨u, hu, pins, hph, hcur, -⟩ : ∃ u, run m s = .next u ∧ ∃ pins, u.pastPreRoll s.cur pins := by
      rcases Nat.lt_or_ge m s.highLen with hhigh | hlow
      · exact (hslot.during_pulse hpast hhigh).imp fun _ hu => ⟨hu.1, _, hu.2⟩
      · exact (hslot.during_low hlow hm).imp fun _ hu => ⟨hu.1, _, hu.2⟩
    exact ⟨u, hu, hcur, fun hstart => hph hstart.1⟩

/-- Settles O52: the pins are those of the start up to the fall of the channel's own, and those of the fall from there
on. -/
theorem highTimeIsPreRollPlusPulse : Obligations.HighTimeIsPreRollPlusPulse := by
  intro s hi hr hs hen hpin trim pt m hm
  have h := slotStart.waiting hi hr hs
  obtain ⟨a, b, t, hslot⟩ := h.exists_slot hs
  rcases Nat.lt_or_ge m s.highLen with hhigh | hlow
  · obtain ⟨u, hu, hpins⟩ : ∃ u, run m s = .next u ∧ u.pins = s.pins := by
      rcases Nat.lt_or_ge m s.preRollLen with hpre | hpast
      · exact ⟨_, run_of_lt_preRollLen h hs hpre, rfl⟩
      · exact (hslot.during_pulse hpast hhigh).imp fun _ hu => ⟨hu.1, hu.2.2.2⟩
    have hsame (k : Nat) : u.pin k = s.pin k := by rw [State.pin, hpins, State.pin]
    exact ⟨u, hu, (hsame _).trans (hpin.trans (decide_eq_true hhigh).symm), fun k _ => hsame k⟩
  · obtain ⟨u, hu, -, -, hpins⟩ := hslot.during_low hlow hm
    have hsame (k : Nat) : u.pin k = b.pin k := by rw [State.pin, hpins, State.pin]
    refine ⟨u, hu, ?_, fun k hk => ?_⟩
    · rw [hsame, hslot.falls, if_pos ⟨rfl, hen⟩]
      exact (decide_eq_false (Nat.not_lt.mpr hlow)).symm
    · rw [hsame, hslot.falls, if_neg fun hcur => hk hcur.1]

/-! ## Slot after slot (R132, R138) -/

/-- The slot of a pulse in 1..190 has the regular length (R136). -/
theorem slotTicks_regular {trim pt : Nat} (hpos : 1 ≤ pt) (hle : pt ≤ 190) : slotTicks trim pt = 510 - trim := by
  rw [slotTicks, if_neg (by omega), if_pos hle]

/-- Where every pulse is in 1..190, slot number `j` after the one of `s` begins `j` regular lengths after it. -/
theorem run_regularSlots (h : s.Waiting) (hs : s.slotStart)
    (hregular : ∀ k < s.cfg.n, 1 ≤ (s.chan k).pt.toNat ∧ (s.chan k).pt.toNat ≤ 190) (j : Nat) :
    ∃ u, run (j * (510 - s.cfg.isrTrimTicks.val)) s = .next u ∧ u.Waiting ∧ u.slotStart ∧
      u.cur = (s.cur + j) % s.cfg.n ∧ u.cfg = s.cfg ∧ u.table = s.table := by
  induction j with
  | zero => exact ⟨s, by rw [Nat.zero_mul, run_zero], h, hs, (Nat.mod_eq_of_lt h.sound.cur_lt).symm, rfl, rfl⟩
  | succ j ih =>
    obtain ⟨u, hu, hwaiting, hstart, hcur, hcfg, htable⟩ := ih
    obtain ⟨a, b, t, hslot⟩ := hwaiting.exists_slot hstart
    have hchan : u.curChan = s.chan u.cur := by rw [State.curChan, State.chan, State.chan, hcfg, htable]
    obtain ⟨hpos, hle⟩ := hregular u.cur (hcfg ▸ hwaiting.sound.cur_lt)
    have hlen : u.slotLen = 510 - s.cfg.isrTrimTicks.val := by
      rw [State.slotLen, hchan, slotTicks_regular hpos hle, hcfg]
    refine ⟨t, ?_, hslot.waiting, hslot.start, ?_, hslot.cfg.trans hcfg, hslot.table.trans htable⟩
    · rw [Nat.succ_mul, run_add, hu, andThen_next, ← hlen, hslot.run_slotLen]
    · rw [hslot.cur, hcur, hcfg, Nat.mod_add_mod, Nat.add_assoc]

/-- Settles O53: each slot has the regular length and leaves the table as it was, so the next one has it too. -/
theorem roundRobinOfRegularSlots : Obligations.RoundRobinOfRegularSlots := by
  intro s j hi hr hs hregular
  obtain ⟨u, hu, -, hstart, hcur, -, htable⟩ := run_regularSlots (slotStart.waiting hi hr hs) hs hregular j
  exact ⟨u, hu, hstart, hcur, htable⟩

end Sys2Proof.Machine
end

section
/-! SUPPORT. The statements of spec/43_register_interface.md: what each register transaction answers and writes, and
that the transactions of `ENABLE` and `POSITION` are the operations of the Channel Table. -/

namespace Sys2Proof.Machine

variable {s : State} {k : BitVec 4} {idx v : Byte}

/-! ## Transactions that write no state (R151, R152, R154, R158, R160, R161) -/

/-- Settles O19: both rows only answer. -/
theorem resetAddressReadAndZeroWriteDoNothing : Obligations.ResetAddressReadAndZeroWriteDoNothing :=
  fun _ d hv hr =>
    ⟨⟨_, exec_rdReset d hv hr, onlyAnswered_withAnswer .., rfl⟩,
      ⟨_, exec_wrResetZ hv hr, onlyAnswered_withAnswer .., rfl⟩⟩

/-- Settles O14: the row only answers, with the byte of the enable bit. -/
theorem rdEnableReturnsTheEnableBit : Obligations.RdEnableReturnsTheEnableBit :=
  fun _ k d hi hr _ => ⟨_, exec_rdEnable k d hi.instance_valid hr, onlyAnswered_withAnswer .., rfl⟩

/-- Settles O16: the row only answers, with the pulse. -/
theorem rdTicksReturnsThePulse : Obligations.RdTicksReturnsThePulse :=
  fun _ k d hi hr _ => ⟨_, exec_rdTicks k d hi.instance_valid hr, onlyAnswered_withAnswer .., rfl⟩

/-- Settles O17: the report carries the byte `0xFF` all the same. -/
theorem rdUndefReturnsFFAndReports : Obligations.RdUndefReturnsFFAndReports :=
  fun _ a d hv hr _ => ⟨_, exec_rdUndef a d hv hr, onlyAnswered_raise .., rfl⟩

/-- Settles O24: the report carries no byte. -/
theorem wrUndefIsSilent : Obligations.WrUndefIsSilent :=
  fun _ a d hv hr _ => ⟨_, exec_wrUndef a d hv hr, onlyAnswered_raise .., rfl⟩

/-! ## Transactions that write one field (R155, R159) -/

/-- Settles O21: the row is one `EN` write inside the table. -/
theorem wrEnableWritesTheEnableBit : Obligations.WrEnableWritesTheEnableBit := by
  intro s k v hi hr hk
  have hbit : decide (v ≠ 0#8) = (v != 0#8) := decide_not
  rw [hbit]
  exact ⟨_, exec_wrEnable k v hi.instance_valid hr, wroteEnable_setEn _ _ answerDone (hi.channel_lt hk), rfl⟩

/-- Settles O23: the row is one `PT` write inside the table. -/
theorem wrTicksStoresTheByte : Obligations.WrTicksStoresTheByte :=
  fun _ k v hi hr hk =>
    ⟨_, exec_wrTicks k v hi.instance_valid hr, wrotePulse_setPt k.toNat v answerDone (hi.channel_lt hk), rfl⟩

/-! ## Transactions that are operations (R155, R157, R163) -/

/-- On a channel of the instance the index test of R90 makes no difference, a pending reset or not. -/
theorem hostStep_indexed_of_lt (hx : idx.toNat < s.cfg.n) (onError : Option Half) (body : State → State) :
    hostStep s (fun u => indexed idx onError u body) = hostStep s body := by
  simp only [hostStep, indexed_of_lt hx]

section
variable (arg : Half) (hx : idx.toNat < s.cfg.n) (hk : idx.toNat = k.toNat)
include hx hk

theorem exec_wrEnable_eq_enable (hv : v ≠ 0#8) : exec (.wrEnable k v) s = exec (.enable idx arg) s := by
  have hbit : (v != 0#8) = true := bne_iff_ne.mpr hv
  rw [exec, execWrEnable, exec, execEnable, hostStep_indexed_of_lt hx, hk, hbit]

theorem exec_wrEnable_zero_eq_disable : exec (.wrEnable k 0#8) s = exec (.disable idx arg) s := by
  have hbit : (0#8 != 0#8) = false := bne_self_eq_false _
  rw [exec, execWrEnable, exec, execDisable, hostStep_indexed_of_lt hx, hk, hbit]

/-- The datum and the argument are the same number of degrees. -/
theorem exec_wrPosition_eq_setPos : exec (.wrPosition k v) s = exec (.setPos idx (v.setWidth 16)) s := by
  have hdeg : (v.setWidth 16).toNat = v.toNat := BitVec.toNat_setWidth_of_le (by decide)
  rw [exec, execWrPosition, exec, execSetPos, hostStep_indexed_of_lt hx, hk, hdeg]

end

/-! ## What the reads of both ports return (R154, R156, R163) -/

theorem enableByte_toNat_eq_enableHalf (c : Channel) : (enableByte c).toNat = (enableHalf c).toNat := by
  unfold enableByte enableHalf
  split <;> rfl

/-- Saturating to 16 bits first does not change what saturates to a byte. -/
theorem positionByte_toNat_eq_positionHalf (tickUs : Nat) (c : Channel) :
    (positionByte tickUs c).toNat = min (positionHalf tickUs c).toNat 255 := by
  rw [positionByte_toNat, positionHalf_toNat, Nat.min_assoc, Nat.min_eq_right (a := 65535) (b := 255) (by decide)]

/-- Settles O59: the writes are the same Host step, and the reads answer one record's value in two widths. -/
theorem transactionsEqualOperations : Obligations.TransactionsEqualOperations := by
  intro s k idx v d arg hi hlt hk
  have hx : idx.toNat < s.cfg.n := hk ▸ hlt
  have hv := hi.instance_valid
  refine ⟨exec_wrEnable_eq_enable arg hx hk, exec_wrEnable_zero_eq_disable arg hx hk,
    exec_wrPosition_eq_setPos hx hk, fun hr => ?enable, fun hr => ?position⟩
  case enable =>
    refine ⟨_, _, _, _, exec_rdEnable k d hv hr, exec_isEnabled_of_lt arg hi hr hx, rfl, rfl, ?_⟩
    rw [hk]
    exact enableByte_toNat_eq_enableHalf _
  case position =>
    refine ⟨_, _, _, _, exec_rdPosition k d hv hr, exec_getPos_of_lt arg hi hr hx, rfl, rfl, ?_⟩
    rw [hk]
    exact positionByte_toNat_eq_positionHalf _ _

end Sys2Proof.Machine
end

section
/-! SUPPORT. The statements of spec/60_exceptions.md: when an index is reported, that an error writes nothing, and that
the handler goes before a tick that comes too late. -/

namespace Sys2Proof.Machine

variable {i : Instr} {s t : State} {rest : List Turn}

/-! ## The latency bound (R178) -/

/-- A timer turn that the bound forbids stays first in the list, behind the handler (log 5). -/
theorem pick_timer_handler (hs : s.env.sched = .timer :: rest) (hd : s.handlerDue = true) :
    pick s = handlerTurn (.timer :: rest) s := by
  simp [pick, hs, hd]

/-- Settles O11: the handler is due, and its turn puts back the list it found. -/
theorem latencyBoundPutsTheHandlerFirst : Obligations.LatencyBoundPutsTheHandlerFirst := by
  intro s rest hv hs hm hlate
  have henv : { s.env with sched := .timer :: rest, late := 0 } = { s.env with late := 0 } := by rw [← hs]
  have hd : s.handlerDue = true := handlerDue_eq_true.mpr ⟨hm, hlate⟩
  rw [step_of_handlerTurn hv (pick_timer_handler hs hd), henv]

/-! ## An error writes nothing (R170, R175) -/

/-- Settles O56: a Host step that writes a field or starts the commanded reset answers Ok. -/
theorem errorsChangeNothing : Obligations.ErrorsChangeNothing := by
  intro i s t a hh h ha herr
  have not_done (ht : t.answer = some answerDone) : False :=
    herr (congrArg Answer.status (Option.some.inj (ha.symm.trans ht)))
  obtain ⟨-, ⟨-, rfl⟩ | ⟨-, ⟨_, -, rfl⟩ | ⟨b, rfl⟩ | ⟨_, _, -, rfl⟩ | ⟨_, _, -, rfl⟩⟩⟩ := exec_host_cases hh h
  · exact onlyAnswered_refl _
  · exact (not_done rfl).elim
  · exact onlyAnswered_withAnswer s b
  · exact (not_done rfl).elim
  · exact (not_done rfl).elim

/-! ## The index test (R90, R171) -/

/-- An operation whose index is out of range only reports the index, whatever its body. -/
theorem exec_indexed_of_ge {x : Byte} {v : Option Half} {body : State → State} (hx : s.cfg.n ≤ x.toNat)
    (h : exec i s = .next (indexed x v s body)) :
    ∃ t, exec i s = .next t ∧ onlyAnswered s t ∧ t.answer = some (raised .invalidIndex x.toNat none v) := by
  rw [indexed_of_ge hx] at h
  exact ⟨_, h, onlyAnswered_raise .., rfl⟩

/-- Past the index test a width is stored or reported as a value. -/
theorem storeWidth_answer (k us : Nat) (s : State) :
    ∃ a, (storeWidth k us s).answer = some a ∧ a.status ≠ .invalidIndex := by
  rcases storeWidth_cases k us s with ⟨-, h⟩ | ⟨_, -, h⟩ <;> rw [h]
  · exact ⟨_, rfl, nofun⟩
  · exact ⟨_, rfl, nofun⟩

/-- Past the index test an angle is stored or reported as a value. -/
theorem storeAngle_answer (k deg : Nat) (s : State) :
    ∃ a, (storeAngle k deg s).answer = some a ∧ a.status ≠ .invalidIndex := by
  rcases storeAngle_cases k deg s with ⟨-, h⟩ | ⟨-, h⟩ <;> rw [h]
  · exact ⟨_, rfl, nofun⟩
  · exact storeWidth_answer k _ s

/-- A register transaction has no index test: the address decoder has found its channel (R75, R171). -/
theorem exec_register_answer {p : Params} {w : BitVec 17} (hw : encode p i = .reg w) (hv : s.cfg.valid = true)
    (hr : s.rstp = false) : ∃ t a, exec i s = .next t ∧ t.answer = some a ∧ a.status ≠ .invalidIndex := by
  cases i with
  | rdReset d => exact ⟨_, _, exec_rdReset d hv hr, rfl, nofun⟩
  | wrResetZ => exact ⟨_, _, exec_wrResetZ hv hr, rfl, nofun⟩
  | wrResetNz d => exact ⟨_, _, exec_wrResetNz d hv hr, rfl, nofun⟩
  | rdEnable k d => exact ⟨_, _, exec_rdEnable k d hv hr, rfl, nofun⟩
  | wrEnable k v => exact ⟨_, _, exec_wrEnable k v hv hr, rfl, nofun⟩
  | rdPosition k d => exact ⟨_, _, exec_rdPosition k d hv hr, rfl, nofun⟩
  | rdTicks k d => exact ⟨_, _, exec_rdTicks k d hv hr, rfl, nofun⟩
  | wrTicks k v => exact ⟨_, _, exec_wrTicks k v hv hr, rfl, nofun⟩
  | rdUndef x d => exact ⟨_, _, exec_rdUndef x d hv hr, rfl, nofun⟩
  | wrUndef x d => exact ⟨_, _, exec_wrUndef x d hv hr, rfl, nofun⟩
  | wrPosition k v =>
    obtain ⟨a, ha, hne⟩ := storeAngle_answer k.toNat v.toNat s
    exact ⟨_, a, exec_wrPosition k v hv hr, ha, hne⟩
  | _ => exact absurd hw nofun

/-- Settles O33: the index test comes before the body of each operation, and no register transaction has one. -/
theorem invalidIndexChangesNothing : Obligations.InvalidIndexChangesNothing := by
  refine ⟨fun s x a hv hr hx => ⟨?writes, ?reads⟩, fun s t w a hr h ha => ?transactions⟩
  case writes =>
    simp only [List.forall_mem_cons]
    exact ⟨exec_indexed_of_ge hx (exec_enable x a hv hr), exec_indexed_of_ge hx (exec_disable x a hv hr),
      exec_indexed_of_ge hx (exec_setPos x a hv hr), exec_indexed_of_ge hx (exec_setUs x a hv hr), nofun⟩
  case reads =>
    simp only [List.forall_mem_cons]
    exact ⟨exec_indexed_of_ge hx (exec_isEnabled x a hv hr), exec_indexed_of_ge hx (exec_getPos x a hv hr),
      exec_indexed_of_ge hx (exec_getUs x a hv hr), nofun⟩
  case transactions =>
    have hv : s.cfg.valid = true := by
      by_contra hbad
      exact absurd ((exec_of_invalid hbad _).symm.trans h) nofun
    obtain ⟨-, hw⟩ := decodeReg_saidBy hv s.curChan.pt w
    obtain ⟨u, b, hexec, hb, hne⟩ := exec_register_answer hw hv hr
    obtain rfl : t = u := Host.Outcome.next.inj (h.symm.trans hexec)
    obtain rfl : a = b := Option.some.inj (ha.symm.trans hb)
    exact hne

end Sys2Proof.Machine
end

section
/-! SUPPORT. The statement of spec/70_reset_and_hazards.md: the ticks from a reset to the first row, and what that row
leaves. The surroundings are any here, so the reset state need not be sound (their lateness can be past its bound), and
the wait is followed on a legal instance alone. -/

namespace Sys2Proof.Machine

variable {s u : State} {m n : Nat}

/-! ## `run` up to the first match (R82, R113) -/

/-- As long as the flag is clear the handler has no part in `run`. -/
theorem FlagRises.run_eq_ticks (h : FlagRises n s u) (hm : m < n) : run m s = ticks m s := by
  induction m with
  | zero => rw [run_zero, ticks_zero]
  | succ m ih =>
    obtain ⟨v, hv, hclear⟩ := h.clear_before (m + 1) hm
    obtain ⟨w, hw, htick⟩ := andThen_eq_next.mp hv
    rw [run_succ, ih (Nat.lt_of_succ_lt hm), hv, hw, andThen_next, tickRound_of_clear htick hclear]

/-- The tick that raises the flag is the round in which the handler runs. -/
theorem FlagRises.run_eq_isr (h : FlagRises n s u) (hpos : 0 < n) : run n s = isr u := by
  obtain ⟨m, rfl⟩ := Nat.exists_eq_add_of_le' hpos
  obtain ⟨v, hv, htick⟩ := andThen_eq_next.mp h.reached
  rw [run_succ, h.run_eq_ticks (Nat.lt_succ_self m), hv, andThen_next, tickRound_of_flag htick h.flag]

section
variable (hv : s.cfg.valid = true) (hclear : s.mf = false) (hfree : s.rstp = false)
include hv hclear hfree

/-- The ticks of the wait with no reset pending; of the delay, which does not run, nothing is said. -/
theorem ticks_eq_waited_of_free (hm : m ≤ s.wait) : ∃ r, ticks m s = .next { s.waited m with rstc := r } := by
  obtain ⟨r, ht, -⟩ := ticks_eq_waited_of_valid hv hclear hm fun hr => absurd hr (by simp [hfree])
  exact ⟨r, ht⟩

theorem flagRises_wait_of_free : ∃ r, FlagRises s.wait s { s.waited s.wait with rstc := r } := by
  obtain ⟨r, hreached⟩ := ticks_eq_waited_of_free hv hclear hfree le_rfl
  refine ⟨r, fun m hm => ?_, hreached, waited_wait_mf s⟩
  obtain ⟨q, ht⟩ := ticks_eq_waited_of_free hv hclear hfree hm.le
  exact ⟨_, ht, decide_eq_false hm.ne⟩

/-- Before the match nothing but the timer moves. -/
theorem run_before_match (hm : m < s.wait) :
    ∃ u, run m s = .next u ∧ s.sameRow u ∧ u.mf = false := by
  obtain ⟨r, hrise⟩ := flagRises_wait_of_free hv hclear hfree
  obtain ⟨q, ht⟩ := ticks_eq_waited_of_free hv hclear hfree hm.le
  exact ⟨_, (hrise.run_eq_ticks hm).trans ht, ⟨rfl, rfl, rfl⟩, decide_eq_false hm.ne⟩

/-- At the match the handler runs, on a state where nothing but the timer has moved. -/
theorem run_at_match :
    ∃ u, run s.wait s = isr u ∧ u.mf = true ∧ s.sameRow u ∧ u.cfg = s.cfg ∧ u.table = s.table := by
  obtain ⟨r, hrise⟩ := flagRises_wait_of_free hv hclear hfree
  exact ⟨_, hrise.run_eq_isr (waitTicks_pos _ _), hrise.flag, ⟨rfl, rfl, rfl⟩, rfl, rfl⟩

end

/-! ## The first row after a reset (R202) -/

/-- Both counts start at zero, so the first match needs a full turn of the counter. -/
theorem resetIn_wait (p : Params) (env : Env) : (State.resetIn p env).wait = 256 := by
  simp [State.wait, waitTicks]

/-- A disabled channel's pin is not driven (R134). -/
theorem drivePin_of_disabled (hen : s.curChan.en = false) (v : Bool) : s.drivePin v = s := by
  rw [State.drivePin, hen, if_neg Bool.false_ne_true]

/-- Where the next channel is disabled, the `SetPinHigh` row starts its slot and moves no pin. -/
theorem isr_setPinHigh_of_disabled (hv : s.cfg.valid = true) (hm : s.mf = true) (hp : s.ph = .setPinHigh)
    (hen : (s.chan ((s.cur + 1) % s.cfg.n)).en = false) :
    ∃ t, isr s = .next t ∧ t.slotStart ∧ t.cur = (s.cur + 1) % s.cfg.n ∧ t.pins = s.pins := by
  have hkeep : s.enterHandler.advanceChannel.drivePin true = s.enterHandler.advanceChannel :=
    drivePin_of_disabled (s := s.enterHandler.advanceChannel) hen true
  have hisr := isr_of_setPinHigh hv hm hp
  rw [hkeep] at hisr
  exact ⟨_, hisr, ⟨rfl, rfl, preRollCompare_toNat s.cfg, rfl⟩, rfl, rfl⟩

/-- Settles O50: the ticks of the first wait, and then the row that ends it, on a table with every channel disabled. -/
theorem firstEventAfterReset : Obligations.FirstEventAfterReset := by
  intro p env hv
  have hwait := resetIn_wait p env
  refine ⟨fun m hm => ?before, ?atMatch⟩
  case before =>
    obtain ⟨u, hu, ⟨hph, hcur, -⟩, hclear⟩ :=
      run_before_match (s := State.resetIn p env) hv rfl rfl (hm.trans_eq hwait.symm)
    exact ⟨u, hu, hph, hcur, hclear⟩
  case atMatch =>
    obtain ⟨u, hrun, hflag, ⟨hph, hcur, hpins⟩, hcfg, htable⟩ :=
      run_at_match (s := State.resetIn p env) hv rfl rfl
    have hen (k : Nat) : (u.chan k).en = false := by
      rw [State.chan, hcfg, htable, ← State.chan, resetIn_chan, Channel.atReset]
    obtain ⟨t, hisr, hstart, hnext, hkept⟩ := isr_setPinHigh_of_disabled (hcfg ▸ hv) hflag hph (hen _)
    refine ⟨t, hwait ▸ hrun.trans hisr, hstart, by rw [hnext, hcur, hcfg, resetIn_cur, resetIn_cfg], fun k => ?_⟩
    rw [State.pin, hkept, hpins]
    exact resetIn_pin p env k

end Sys2Proof.Machine
end
